-- ==== Sys2Proof/Word.lean ====
section
/-! DEFINITION. The word types of the hardware: every register, memory word, address and instruction is 16 bits (R6). -/

namespace Sys2Proof

/-- A 16-bit word: "the machine's fundamental data size" (R6). -/
abbrev Word := BitVec 16

/-- A byte of the host's streams, and a trap vector (R8, R83). -/
abbrev Byte := BitVec 8

end Sys2Proof
end

