-- ==== Sys2Proof/Config.lean ====
section
/-! DEFINITION. What one machine of this hardware fixes: the reset PC, the OPEN parameters of R5, and the free values
that stand for the host's draws (R211, R212, R213). An opaque constant has no value that a proof can see. -/

namespace Sys2Proof

/-- The reasons of a fault, the complete list of R202. -/
inductive FaultReason where
  /-- code 1: a TRAP whose vector `v` is not in 0x20..0x25 (R177) -/
  | invalidTrap (v : Byte)
  /-- code 2: `Error` from a poll, or `EOF` or `Error` from a blocking read (R52, R171, R174) -/
  | inputError
  /-- code 3: `Error` from an output transaction (R172 to R176) -/
  | outputError
  deriving DecidableEq, Repr

/-- What the host chooses at `InPoll()` (R211): to offer the next byte of its stream, to answer `NotAvail`, or `Error`. -/
inductive PollChoice where
  | ready
  | notReady
  | error
  deriving DecidableEq, Repr, Inhabited

/-- What the host chooses at `InRead()` (R212): to answer from its stream, to answer `Error`, or not to answer yet. -/
inductive ReadChoice where
  | answer
  | error
  | wait
  deriving DecidableEq, Repr, Inhabited

/-- What the host chooses at `OutByte(b)` (R213): `Ok` or `Error`. -/
inductive OutChoice where
  | accept
  | error
  deriving DecidableEq, Repr, Inhabited

namespace Config

/-- The default of the parameter `RESET_PC`, 0x3000 (R5, R25, D9). Another value is an argument of `State.resetAt` and
`boot` (R220, U15): log 10. -/
def resetPc : Word := 0x3000

/-- `TRAP_IN_SETS_COND`, OPEN (R5, D6): whether GETC and IN recompute COND from R0. Log 6. -/
opaque trapInSetsCond : Bool

/-- `IN_PROMPT`, OPEN (R5, D7), a byte string, possibly empty. Log 7. -/
opaque inPrompt : List Byte

/-- `HALT_MESSAGE`, OPEN (R5, D8), a byte string, possibly empty. Log 8. -/
opaque haltMessage : List Byte

/-- `FAULT_MESSAGE(reason)`, OPEN (R5, D20), a byte string, possibly empty. Log 9. -/
opaque faultMessage : FaultReason → List Byte

/-- FREE VALUE (R211, D5): the host's choice at a poll for which the state lists none. Log 24. -/
opaque freePoll : Nat → PollChoice

/-- FREE VALUE (R212): the host's choice at a blocking read for which the state lists none. Log 24. -/
opaque freeRead : Nat → ReadChoice

/-- FREE VALUE (R213): the host's choice at an output byte for which the state lists none. Log 24. -/
opaque freeOut : Nat → OutChoice

/-- FREE VALUE (R210, R231): the byte at a position of the host's input stream that the state does not list; `none`
where the stream has ended. Log 24. -/
opaque freeInput : Nat → Option Byte

end Config

end Sys2Proof
end

