-- ==== Sys2Proof/Syntax.lean ====
section
/-! DEFINITION. The instructions, one constructor per row of spec/opcode_table.json (R81, R82). An ignored bit
(R84, D10) is no part of the syntax. -/

namespace Sys2Proof

/-- A 3-bit register index: R0 to R7 (R21). -/
abbrev Reg := Fin 8

/-- One constructor per row of the opcode table. -/
inductive Instr where
  /-- R150: BR with the mask bits n, z, p and PCoffset9 -/
  | br (n z p : Bool) (offset : BitVec 9)
  /-- R100: ADD DR, SR1, SR2 -/
  | addReg (dr sr1 sr2 : Reg)
  /-- R101: ADD DR, SR1, #imm5 -/
  | addImm (dr sr1 : Reg) (imm5 : BitVec 5)
  /-- R120: LD DR, PCoffset9 -/
  | ld (dr : Reg) (offset : BitVec 9)
  /-- R124: ST SR, PCoffset9 -/
  | st (sr : Reg) (offset : BitVec 9)
  /-- R152: JSR PCoffset11 -/
  | jsr (offset : BitVec 11)
  /-- R153: JSRR BaseR -/
  | jsrr (base : Reg)
  /-- R102: AND DR, SR1, SR2 -/
  | andReg (dr sr1 sr2 : Reg)
  /-- R103: AND DR, SR1, #imm5 -/
  | andImm (dr sr1 : Reg) (imm5 : BitVec 5)
  /-- R122: LDR DR, BaseR, #offset6 -/
  | ldr (dr base : Reg) (offset : BitVec 6)
  /-- R126: STR SR, BaseR, #offset6 -/
  | str (sr base : Reg) (offset : BitVec 6)
  /-- R154: RTI, a no-op -/
  | rti
  /-- R104: NOT DR, SR -/
  | notReg (dr sr : Reg)
  /-- R121: LDI DR, PCoffset9 -/
  | ldi (dr : Reg) (offset : BitVec 9)
  /-- R125: STI SR, PCoffset9 -/
  | sti (sr : Reg) (offset : BitVec 9)
  /-- R151: JMP BaseR, BaseR not R7 (the words of BaseR = R7 match the RET row, R82) -/
  | jmp (base : Reg)
  /-- R151: RET, which is JMP R7 -/
  | ret
  /-- R155: RES, a no-op -/
  | res
  /-- R123: LEA DR, PCoffset9 -/
  | lea (dr : Reg) (offset : BitVec 9)
  /-- R171: TRAP x20 -/
  | trapGetc
  /-- R172: TRAP x21 -/
  | trapOut
  /-- R173: TRAP x22 -/
  | trapPuts
  /-- R174: TRAP x23 -/
  | trapIn
  /-- R175: TRAP x24 -/
  | trapPutsp
  /-- R176: TRAP x25 -/
  | trapHalt
  /-- R177: TRAP with a vector outside 0x20..0x25 -/
  | trapInvalid (vector : Byte)
  deriving DecidableEq, Repr

end Sys2Proof
end

