-- ==== Sys2Proof/WellFormed.lean ====
section
/-! DEFINITION. Which instruction terms stand for words: the two rows of the opcode table that lose words to a row with
more mask bits (R82). Field widths need no check: their types hold them. -/

namespace Sys2Proof

/-- The six recognised trap vectors, 0x20 to 0x25 (R5, R82). -/
def isServiceVector (v : Byte) : Bool := decide (0x20 ≤ v.toNat) && decide (v.toNat ≤ 0x25)

/-- `JMP` with BaseR = R7 is the RET row, and an invalid vector is none of the six services (R82); every other term is
well formed. -/
def Instr.wf : Instr → Bool
  | .jmp base => decide (base ≠ 7)
  | .trapInvalid v => !isServiceVector v
  | .br _ _ _ _ | .addReg _ _ _ | .addImm _ _ _ | .ld _ _ | .st _ _ | .jsr _ | .jsrr _ | .andReg _ _ _ => true
  | .andImm _ _ _ | .ldr _ _ _ | .str _ _ _ | .rti | .notReg _ _ | .ldi _ _ | .sti _ _ | .ret | .res => true
  | .lea _ _ | .trapGetc | .trapOut | .trapPuts | .trapIn | .trapPutsp | .trapHalt => true

end Sys2Proof
end

