-- ==== Sys2Proof/Decode.lean ====
section
/-! DEFINITION. The field layout (R74 to R80), the decoder (R72, R81, R82), and the encoder over the same layout. -/

namespace Sys2Proof

/-! ### The layout table: the lowest bit of every field (R74 to R80; the positions R74 to R77 take from D1 are log 1) -/

/-- the opcode, [15:12] (R72) -/
def layoutOpcode : Nat := 12
/-- DR, or the SR of ST, STI and STR, [11:9] (R74 to R77) -/
def layoutDr : Nat := 9
/-- SR1, NOT's SR, or BaseR, [8:6] (R74, R75, R77, R79, R80) -/
def layoutSr1 : Nat := 6
/-- SR2, [2:0] (R74) -/
def layoutSr2 : Nat := 0
/-- the immediate flag, [5] (R74) -/
def layoutImmFlag : Nat := 5
/-- JSR's long flag, [11] (R79) -/
def layoutLongFlag : Nat := 11
/-- n, z and p of BR: [11], [10], [9] (R78) -/
def layoutN : Nat := 11
def layoutZ : Nat := 10
def layoutP : Nat := 9

/-- The register named by the three bits of `w` from bit `lo` up (R83: "naming R0 to R7 directly"). -/
def regField (lo : Nat) (w : Word) : Reg := (w.extractLsb' lo 3).toFin

/-- The low `n` bits of `w`: imm5, offset6, PCoffset9, PCoffset11 and trapvect8 all end at bit 0 (R83). -/
def lowField (n : Nat) (w : Word) : BitVec n := w.extractLsb' 0 n

/-- The opcode, `ir[15:12]` (R72). -/
def opcodeField (w : Word) : Nat := (w.extractLsb' layoutOpcode 4).toNat

/-- Why a decode is refused. -/
inductive DecodeError where
  /-- The document's "defensive hard stop" for an opcode that matches nothing: "unreachable given the 4-bit field"
  (R72, U3). No word gives it. -/
  | noSuchOpcode (op : Nat)
  deriving DecidableEq, Repr

/-- TRAP's secondary decode on `ir[7:0]` (R82). -/
def decodeTrap (v : Byte) : Instr :=
  match v.toNat with
  | 0x20 => .trapGetc
  | 0x21 => .trapOut
  | 0x22 => .trapPuts
  | 0x23 => .trapIn
  | 0x24 => .trapPutsp
  | 0x25 => .trapHalt
  | _ => .trapInvalid v

/-- JMP, or RET when BaseR = 7 (R82: the row with the most mask bits applies). -/
def decodeJmp (base : Reg) : Instr := if base = 7 then .ret else .jmp base

/-- The decoder: `ir[15:12]` selects one of sixteen opcodes (R72, R81), with the secondary decode of R82. Ignored bits
are not read (R84, D10; log 11). -/
def decode (w : Word) : Except DecodeError Instr :=
  match opcodeField w with
  | 0 => .ok (.br (w.getLsbD layoutN) (w.getLsbD layoutZ) (w.getLsbD layoutP) (lowField 9 w))
  | 1 => .ok (if w.getLsbD layoutImmFlag then .addImm (regField layoutDr w) (regField layoutSr1 w) (lowField 5 w)
      else .addReg (regField layoutDr w) (regField layoutSr1 w) (regField layoutSr2 w))
  | 2 => .ok (.ld (regField layoutDr w) (lowField 9 w))
  | 3 => .ok (.st (regField layoutDr w) (lowField 9 w))
  | 4 => .ok (if w.getLsbD layoutLongFlag then .jsr (lowField 11 w) else .jsrr (regField layoutSr1 w))
  | 5 => .ok (if w.getLsbD layoutImmFlag then .andImm (regField layoutDr w) (regField layoutSr1 w) (lowField 5 w)
      else .andReg (regField layoutDr w) (regField layoutSr1 w) (regField layoutSr2 w))
  | 6 => .ok (.ldr (regField layoutDr w) (regField layoutSr1 w) (lowField 6 w))
  | 7 => .ok (.str (regField layoutDr w) (regField layoutSr1 w) (lowField 6 w))
  | 8 => .ok .rti
  | 9 => .ok (.notReg (regField layoutDr w) (regField layoutSr1 w))
  | 10 => .ok (.ldi (regField layoutDr w) (lowField 9 w))
  | 11 => .ok (.sti (regField layoutDr w) (lowField 9 w))
  | 12 => .ok (decodeJmp (regField layoutSr1 w))
  | 13 => .ok .res
  | 14 => .ok (.lea (regField layoutDr w) (lowField 9 w))
  | 15 => .ok (decodeTrap (lowField 8 w))
  | op => .error (.noSuchOpcode op)

/-! ### The encoder -/

/-- `v` with its lowest bit at bit `lo` of a word. -/
def place {n : Nat} (lo : Nat) (v : BitVec n) : Word := v.setWidth 16 <<< lo

/-- A register index in the three bits from bit `lo` up. -/
def placeReg (lo : Nat) (r : Reg) : Word := place lo (BitVec.ofFin (w := 3) r)

/-- The opcode in [15:12]. -/
def placeOpcode (op : Nat) : Word := place layoutOpcode (BitVec.ofNat 4 op)

/-- The word of an instruction, every ignored bit as the assembler writes it: 0, but NOT's [5:0], which are 111111
(R75, R86). -/
def encode : Instr → Word
  | .br n z p off => placeOpcode 0 ||| place layoutN (BitVec.ofBool n) ||| place layoutZ (BitVec.ofBool z) |||
      place layoutP (BitVec.ofBool p) ||| place 0 off
  | .addReg dr sr1 sr2 => placeOpcode 1 ||| placeReg layoutDr dr ||| placeReg layoutSr1 sr1 ||| placeReg layoutSr2 sr2
  | .addImm dr sr1 imm => placeOpcode 1 ||| placeReg layoutDr dr ||| placeReg layoutSr1 sr1 |||
      place layoutImmFlag 1#1 ||| place 0 imm
  | .ld dr off => placeOpcode 2 ||| placeReg layoutDr dr ||| place 0 off
  | .st sr off => placeOpcode 3 ||| placeReg layoutDr sr ||| place 0 off
  | .jsr off => placeOpcode 4 ||| place layoutLongFlag 1#1 ||| place 0 off
  | .jsrr base => placeOpcode 4 ||| placeReg layoutSr1 base
  | .andReg dr sr1 sr2 => placeOpcode 5 ||| placeReg layoutDr dr ||| placeReg layoutSr1 sr1 ||| placeReg layoutSr2 sr2
  | .andImm dr sr1 imm => placeOpcode 5 ||| placeReg layoutDr dr ||| placeReg layoutSr1 sr1 |||
      place layoutImmFlag 1#1 ||| place 0 imm
  | .ldr dr base off => placeOpcode 6 ||| placeReg layoutDr dr ||| placeReg layoutSr1 base ||| place 0 off
  | .str sr base off => placeOpcode 7 ||| placeReg layoutDr sr ||| placeReg layoutSr1 base ||| place 0 off
  | .rti => placeOpcode 8
  | .notReg dr sr => placeOpcode 9 ||| placeReg layoutDr dr ||| placeReg layoutSr1 sr ||| place 0 0b111111#6
  | .ldi dr off => placeOpcode 10 ||| placeReg layoutDr dr ||| place 0 off
  | .sti sr off => placeOpcode 11 ||| placeReg layoutDr sr ||| place 0 off
  | .jmp base => placeOpcode 12 ||| placeReg layoutSr1 base
  | .ret => placeOpcode 12 ||| placeReg layoutSr1 7
  | .res => placeOpcode 13
  | .lea dr off => placeOpcode 14 ||| placeReg layoutDr dr ||| place 0 off
  | .trapGetc => placeOpcode 15 ||| place 0 0x20#8
  | .trapOut => placeOpcode 15 ||| place 0 0x21#8
  | .trapPuts => placeOpcode 15 ||| place 0 0x22#8
  | .trapIn => placeOpcode 15 ||| place 0 0x23#8
  | .trapPutsp => placeOpcode 15 ||| place 0 0x24#8
  | .trapHalt => placeOpcode 15 ||| place 0 0x25#8
  | .trapInvalid v => placeOpcode 15 ||| place 0 v

/-- The decoder's answer for an instruction of `nbits` bits whose bits are `w`; an instruction is one 16-bit word (R73),
so more bits than that are no instruction. -/
def decodeTableWord (nbits w : Nat) : Option Instr :=
  if nbits ≤ 16 ∧ w < 65536 then
    match decode (BitVec.ofNat 16 w) with
    | .ok i => some i
    | .error _ => none
  else none

end Sys2Proof
end

