-- ==== Sys2Proof/Machine/State.lean ====
section
/-! DEFINITION. The machine's state as plain data (R20 to R35), its reset value (R231), and the reasons for which a step
answers no state. -/

namespace Sys2Proof.Machine

/-- One word of memory at an address. Memory names words, and no byte of it has an address (R50, R55, R56): log 19. -/
abbrev Cell := Nat × Word

/-- Memory: addresses strictly rising, and no entry that holds 0x0000, which every unlisted address reads as (R33). -/
abbrev Memory := List Cell

/-- The run state (R34, R201). -/
inductive RunState where
  | running
  | halted
  | faulted (reason : FaultReason)
  deriving DecidableEq, Repr

/-- The trap service that is still going on when a step ends (R179, R219): log 16, log 17. -/
inductive Service where
  /-- no service: the next step fetches -/
  | idle
  /-- GETC, waiting in `InRead` (R171, R212) -/
  | getc
  /-- IN, its prompt written, waiting in `InRead` (R174, R212) -/
  | inRead
  /-- PUTS, whose next word is at `a` (R173) -/
  | puts (a : Word)
  /-- PUTSP, whose next word is at `a` (R175) -/
  | putsp (a : Word)
  deriving DecidableEq, Repr

/-- The host's side of the ports (R210). -/
structure Ports where
  /-- the bytes of the host's input stream that are listed and not consumed, next first (R35) -/
  input : List Byte
  /-- whether the stream ends after `input`; otherwise its further bytes are free values -/
  inputEnds : Bool
  /-- how many bytes of the stream have been consumed (R35, R214) -/
  inputTaken : Nat
  /-- MODEL'S OWN: the host's coming choices at polls (R211), next first -/
  polls : List PollChoice
  /-- MODEL'S OWN: the host's coming choices at blocking reads (R212), next first -/
  reads : List ReadChoice
  /-- MODEL'S OWN: the host's coming choices at output bytes (R213), next first -/
  outs : List OutChoice
  /-- MODEL'S OWN: the argument of the next free choice -/
  draws : Nat
  /-- the host's output stream, first byte first (R213) -/
  output : List Byte
  /-- the fault message, on a stream of its own (R5, D20): log 9 -/
  report : List Byte
  deriving DecidableEq, Repr

/-- Everything the spec gives the machine (R20, R33, R34, R35). KBSR and KBDR are words of `mem` (R30, R31). -/
structure State where
  /-- R0 to R7 (R21) -/
  regs : Vector Word 8
  /-- PC (R24) -/
  pc : Word
  /-- COND (R26) -/
  cond : Word
  /-- the 65536 words (R33) -/
  mem : Memory
  /-- RUNNING, HALTED or FAULTED(reason) (R34) -/
  runState : RunState
  /-- the trap service in progress (R179, R219) -/
  service : Service
  /-- the host's side of the ports (R210) -/
  ports : Ports
  deriving DecidableEq, Repr

/-- Every field at its reset value (R231) for a `RESET_PC` that the embedding chooses (R25, R220, D9; log 10): R0 to R7,
COND and memory zero, PC at `RESET_PC`, RUNNING, no output, nothing consumed. The host's choices and bytes are listed
nowhere, so each is a free value (log 24). -/
def State.resetAt (resetPc : Word) : State where
  regs := Vector.replicate 8 0
  pc := resetPc
  cond := 0
  mem := []
  runState := .running
  service := .idle
  ports :=
    { input := [], inputEnds := false, inputTaken := 0, polls := [], reads := [], outs := [], draws := 0,
      output := [], report := [] }

/-- The reset state at the default `RESET_PC` (R25). -/
def State.reset : State := State.resetAt Config.resetPc

/-- Why a step answers a fault of the host interface. The faults of the spec are not here: each is a state whose run
state is FAULTED(reason) (R203; log 13). -/
inductive Fault where
  /-- The decoder's defensive hard stop (R72, U3). Raised by `step` when `decode` refuses a word; no word is refused, so
  no step raises it. Safe: it stops the machine. Log 27. -/
  | decodeStop (e : DecodeError)
  deriving DecidableEq, Repr

/-- Why a step answers a refusal. -/
inductive Refusal where
  /-- An instruction without a meaning, by its mnemonic; raised by an arm of `exec` only. Safe: it stops the machine. -/
  | notModelled (mnemonic : String)
  deriving DecidableEq, Repr

end Sys2Proof.Machine
end

