-- ==== Sys2Proof/Machine/Ops.lean ====
section
/-! DEFINITION. The named operations over registers, memory and ports, and the two shared operations around a trap and a
fault: entering a trap (R170, R207) and raising a fault (R203). -/

namespace Sys2Proof.Machine

/-! ### Device addresses (R5, D3; PRESUMED, unsafe: log 3) -/

/-- `KBSR_ADDR` (R30) -/
def kbsrAddr : Word := 0xFE00

/-- `KBDR_ADDR` (R31) -/
def kbdrAddr : Word := 0xFE02

/-- What a poll that finds a byte writes into KBSR (R30, D4; log 4). -/
def kbsrReady : Word := 0x8000

/-! ### Bytes of a word (R8) -/

/-- `zext_16(b)` -/
def zext16 (b : Byte) : Word := b.setWidth 16

/-- `low8(w) = w[7:0]` -/
def low8 (w : Word) : Byte := w.extractLsb' 0 8

/-- `high8(w) = w[15:8]` -/
def high8 (w : Word) : Byte := w.extractLsb' 8 8

/-! ### Stored words -/

/-- What a word that nothing has written holds (R33: "Every word resets to 0x0000"). -/
def memoryReset : Word := 0

/-- The stored word at a key; past a larger key there is no entry. -/
def lookupCell : List Cell → Nat → Word
  | [], _ => memoryReset
  | (k, w) :: rest, a => if a < k then memoryReset else if a = k then w else lookupCell rest a

/-- An entry in front of `rest`, left out when it holds what an unlisted address reads as. -/
def consCell (a : Nat) (v : Word) (rest : List Cell) : List Cell :=
  if v = memoryReset then rest else (a, v) :: rest

/-- The list with the word at a key replaced. -/
def storeCell : List Cell → Nat → Word → List Cell
  | [], a, v => consCell a v []
  | (k, w) :: rest, a, v =>
    if a < k then consCell a v ((k, w) :: rest)
    else if a = k then consCell a v rest
    else (k, w) :: storeCell rest a v

/-- Every key of the list is at least `lo` and below 65536, keys rise strictly, and no entry holds the reset word. -/
def cellsFrom : Nat → List Cell → Bool
  | _, [] => true
  | lo, (k, w) :: rest => decide (lo ≤ k) && decide (k < 65536) && decide (w ≠ memoryReset) && cellsFrom (k + 1) rest

/-- The canonical form of memory. -/
def Memory.wf (m : Memory) : Bool := cellsFrom 0 m

/-- `mem[a]`, "the stored word at address `a`, with no device effect" (R9). -/
def Memory.read (m : Memory) (a : Word) : Word := lookupCell m a.toNat

/-- `mem[a] <- v` (R53). -/
def Memory.write (m : Memory) (a v : Word) : Memory := storeCell m a.toNat v

/-! ### Registers (R21, R24, R26) -/

/-- `x[i]` -/
def State.reg (s : State) (r : Reg) : Word := s.regs[r]

/-- `x[i] <- v` -/
def State.setReg (s : State) (r : Reg) (v : Word) : State := { s with regs := s.regs.set r v }

/-- `pc <- t` -/
def State.setPc (s : State) (t : Word) : State := { s with pc := t }

/-- `cond <- v` -/
def State.setCond (s : State) (v : Word) : State := { s with cond := v }

/-- `mem[a] <- v`, on the state -/
def State.setWord (s : State) (a v : Word) : State := { s with mem := s.mem.write a v }

/-- The run state replaced (R34). -/
def State.setRunState (s : State) (r : RunState) : State := { s with runState := r }

/-- The service in progress replaced (R179). -/
def State.setService (s : State) (v : Service) : State := { s with service := v }

/-- The host's side replaced (R210). -/
def State.setPorts (s : State) (p : Ports) : State := { s with ports := p }

/-- The link register (R21). -/
def linkReg : Reg := 7

/-! ### Faults and the end of a run (R180, R203) -/

/-- `raise Fault(reason)` (R203): the run state becomes FAULTED(reason), nothing is rolled back. The fault message is
given to the host on its own stream (R5, D20; log 9). -/
def State.raise (s : State) (reason : FaultReason) : State :=
  (s.setRunState (.faulted reason)).setPorts { s.ports with report := Config.faultMessage reason }

/-- `halt` (R180): the run state becomes HALTED, everything else keeps its value. -/
def State.halt (s : State) : State := s.setRunState .halted

/-- The end of an operation that can raise a fault: a value and the state after it, or the FAULTED state. -/
inductive Result (α : Type) where
  | ok (a : α) (s : State)
  | raised (s : State)

/-- Goes on with the value; a fault ends the instruction at its statement (R203). -/
def Result.andThen {α : Type} (r : Result α) (k : α → State → State) : State :=
  match r with
  | .ok a s => k a s
  | .raised s => s

/-- As `andThen`, where what follows can raise a fault too. -/
def Result.bind {α β : Type} (r : Result α) (k : α → State → Result β) : Result β :=
  match r with
  | .ok a s => k a s
  | .raised s => .raised s

/-! ### The input ports (R210 to R212; DESIGN CHOICE on how the host's draws are held: log 5, log 24) -/

/-- The next unread byte of the host's stream; `none` at its end. -/
def Ports.nextByte (p : Ports) : Option Byte :=
  match p.input with
  | b :: _ => some b
  | [] => if p.inputEnds then none else Config.freeInput p.inputTaken

/-- The stream after one byte of it is consumed (R35). -/
def Ports.takeByte (p : Ports) : Ports := { p with input := p.input.tail, inputTaken := p.inputTaken + 1 }

/-- The answers of `InPoll()` (R210). -/
inductive PollAnswer where
  | avail (b : Byte)
  | notAvail
  | error
  deriving DecidableEq, Repr

/-- The host's choice at the next poll. -/
def Ports.pollChoice (p : Ports) : PollChoice := p.polls.head?.getD (Config.freePoll p.draws)

/-- The answer of the next `InPoll()` (R211): `Avail` carries the next unread byte, and a poll at the end of input is
`NotAvail` (D13). -/
def Ports.pollAnswer (p : Ports) : PollAnswer :=
  match p.pollChoice with
  | .error => .error
  | .notReady => .notAvail
  | .ready =>
    match p.nextByte with
    | some b => .avail b
    | none => .notAvail

/-- The ports after that `InPoll()`: `Avail(b)` consumes the byte (R210). -/
def Ports.afterPoll (p : Ports) : Ports :=
  match p.pollAnswer with
  | .avail _ => { p.takeByte with polls := p.polls.tail, draws := p.draws + 1 }
  | .notAvail | .error => { p with polls := p.polls.tail, draws := p.draws + 1 }

/-- The answers of `InRead()` (R210), and no answer yet (R212). -/
inductive ReadAnswer where
  | byte (b : Byte)
  | eof
  | error
  | wait
  deriving DecidableEq, Repr

/-- The host's choice at the next blocking read. -/
def Ports.readChoice (p : Ports) : ReadChoice := p.reads.head?.getD (Config.freeRead p.draws)

/-- The answer of the next `InRead()` (R212): `Byte` carries the next unread byte, `EOF` is the end of the stream. -/
def Ports.readAnswer (p : Ports) : ReadAnswer :=
  match p.readChoice with
  | .wait => .wait
  | .error => .error
  | .answer =>
    match p.nextByte with
    | some b => .byte b
    | none => .eof

/-- The ports after that `InRead()`: `Byte(b)` consumes the byte (R210). -/
def Ports.afterRead (p : Ports) : Ports :=
  match p.readAnswer with
  | .byte _ => { p.takeByte with reads := p.reads.tail, draws := p.draws + 1 }
  | .eof | .error | .wait => { p with reads := p.reads.tail, draws := p.draws + 1 }

/-! ### The output ports (R210, R213) -/

/-- The host's choice at the next output byte. -/
def Ports.outChoice (p : Ports) : OutChoice := p.outs.head?.getD (Config.freeOut p.draws)

/-- The ports after an output byte was offered, whatever the answer. -/
def Ports.afterOut (p : Ports) : Ports := { p with outs := p.outs.tail, draws := p.draws + 1 }

/-- The ports with a byte appended to the output stream (R213). -/
def Ports.append (p : Ports) (b : Byte) : Ports := { p with output := p.output ++ [b] }

/-- `OutByte(b)`: appends the byte, unless the host answers `Error`, which raises `Fault(OutputError)` (R213, D14). -/
def outByte (b : Byte) (s : State) : Result Unit :=
  match s.ports.outChoice with
  | .accept => .ok () (s.setPorts (s.ports.afterOut.append b))
  | .error => .raised ((s.setPorts s.ports.afterOut).raise .outputError)

/-- `OutBytes(bs)`: `OutByte` on each byte in order, stopping at the first `Error` (43_trap.md, before R170). -/
def outBytes : List Byte → State → Result Unit
  | [], s => .ok () s
  | b :: bs, s => (outByte b s).bind fun _ s' => outBytes bs s'

/-- `OutFlush()`: a flush is no state, and needs no answer (R178, R210, D14; log 15). -/
def outFlush (s : State) : State := s

/-! ### Memory through Machine State (R52, R53) -/

/-- The keyboard poll inside a read of KBSR_ADDR (R52): `Avail(b)` writes KBSR and then KBDR, `NotAvail` clears KBSR,
`Error` raises `Fault(InputError)` (D13). -/
def pollKeyboard (s : State) : Result Unit :=
  match s.ports.pollAnswer with
  | .avail b =>
    .ok () (((s.setPorts s.ports.afterPoll).setWord kbsrAddr kbsrReady).setWord kbdrAddr (zext16 b))
  | .notAvail => .ok () ((s.setPorts s.ports.afterPoll).setWord kbsrAddr 0)
  | .error => .raised ((s.setPorts s.ports.afterPoll).raise .inputError)

/-- `MemRead(a, 1)` (R52). -/
def memRead (a : Word) (s : State) : Result Word :=
  if a = kbsrAddr then (pollKeyboard s).bind fun _ s' => .ok (s'.mem.read a) s'
  else .ok (s.mem.read a) s

/-- `MemWrite(a, 1, v)`, an "unconditional store" (R53). -/
def memWrite (a v : Word) (s : State) : State := s.setWord a v

/-! ### Fetch (R71) -/

/-- The fetch: read the word at pc, then increment pc; a fault of its poll leaves pc as it was (R71, D23). -/
def fetch (s : State) : Result Word :=
  (memRead s.pc s).bind fun ir s' => .ok ir (s'.setPc (s'.pc + 1))

/-! ### Trap entry and return (R170, R207, R208) -/

/-- The common part of TRAP (R170): `x[7] <- pc`, and nothing else changes before the service (R207). -/
def trapEnter (s : State) : State := s.setReg linkReg s.pc

/-- The return from a trap (R208): the service ends, no register is restored, and the next fetch is at pc. -/
def trapReturn (s : State) : State := s.setService .idle

/-! ### The status port (R202, R214) -/

/-- The code of a fault reason (R202). -/
def faultCode : FaultReason → Nat
  | .invalidTrap _ => 1
  | .inputError => 2
  | .outputError => 3

/-- What the status port shows (R210, R214). -/
inductive Status where
  | running
  | halted
  | faulted (code : Nat) (reason : FaultReason)
  deriving DecidableEq, Repr

/-- The status port, "the run state, read at any time" (R210). -/
def State.status (s : State) : Status :=
  match s.runState with
  | .running => .running
  | .halted => .halted
  | .faulted reason => .faulted (faultCode reason) reason

end Sys2Proof.Machine
end

