-- ==== Sys2Proof/Machine/Operands.lean ====
section
/-! DEFINITION. Every operand form of the spec: immediates (R83), the three addressing modes (R127), BR's mask (R78). -/

namespace Sys2Proof.Machine

/-- `sext_b(v)`: the sign of a `b`-bit field extended to 16 bits (R7). -/
def sext {b : Nat} (v : BitVec b) : Word := v.signExtend 16

/-- PC-relative: `pc + sext_9(ir[8:0])` with the incremented pc, modulo 2^16 (R54, R127). -/
def pcRelative9 (s : State) (offset : BitVec 9) : Word := s.pc + sext offset

/-- JSR's target: `pc + sext_11(ir[10:0])` (R152). -/
def pcRelative11 (s : State) (offset : BitVec 11) : Word := s.pc + sext offset

/-- Base + offset: `x[BaseR] + sext_6(ir[5:0])`, modulo 2^16 (R54, R127). -/
def baseOffset6 (s : State) (base : Reg) (offset : BitVec 6) : Word := s.reg base + sext offset

/-- Indirect: the address is the word read at a PC-relative address (R127). -/
def indirect9 (s : State) (offset : BitVec 9) : Result Word := memRead (pcRelative9 s offset) s

/-- BR's mask `ir[11:9]`: n, z and p from the high bit down (R78). -/
def branchMask (n z p : Bool) : Word :=
  place 2 (BitVec.ofBool n) ||| place 1 (BitVec.ofBool z) ||| place 0 (BitVec.ofBool p)

end Sys2Proof.Machine
end

