-- ==== Sys2Proof/Machine/Control.lean ====
section
/-! DEFINITION. Control transfer and the two no-ops (42_control.md, R150 to R156). -/

namespace Sys2Proof.Machine

/-- R150: BR, `pc <- pc + sext_9(PCoffset9)` when the mask and COND share a bit. -/
def execBr (n z p : Bool) (offset : BitVec 9) (s : State) : Host.Outcome State Fault Refusal :=
  .next (if branchMask n z p &&& s.cond ≠ 0 then s.setPc (pcRelative9 s offset) else s)

/-- A jump to a register's value (R151, R156: every target is legal). -/
def jumpTo (base : Reg) (s : State) : State := s.setPc (s.reg base)

/-- `x[7] <- pc`, the return address (R152, R153); COND is not set (R28). -/
def linkPc (s : State) : State := s.setReg linkReg s.pc

/-- R151: JMP, `pc <- x[BaseR]`. -/
def execJmp (base : Reg) (s : State) : Host.Outcome State Fault Refusal := .next (jumpTo base s)

/-- R151: RET, JMP with BaseR = 7. -/
def execRet (s : State) : Host.Outcome State Fault Refusal := .next (jumpTo linkReg s)

/-- R152: JSR, `x[7] <- pc`, then `pc <- pc + sext_11(PCoffset11)`. -/
def execJsr (offset : BitVec 11) (s : State) : Host.Outcome State Fault Refusal :=
  .next ((linkPc s).setPc (pcRelative11 s offset))

/-- R153: JSRR, `x[7] <- pc` first, and BaseR read after it (D11; log 12). -/
def execJsrr (base : Reg) (s : State) : Host.Outcome State Fault Refusal := .next (jumpTo base (linkPc s))

/-- R154: RTI, a no-op: "pc already advanced by the fetch". -/
def execRti (s : State) : Host.Outcome State Fault Refusal := .next s

/-- R155: RES, a no-op, not an illegal instruction. -/
def execRes (s : State) : Host.Outcome State Fault Refusal := .next s

end Sys2Proof.Machine
end

