-- ==== Sys2Proof/Machine/Flags.lean ====
section
/-! DEFINITION. The condition codes: their values (R26) and the one computation of them, `setcc` (R27). -/

namespace Sys2Proof.Machine

/-- `COND_P` (R5, R26, D2; PRESUMED, unsafe: log 2) -/
def condP : Word := 0x0001

/-- `COND_Z` (R5, R26, D2; PRESUMED, unsafe: log 2) -/
def condZ : Word := 0x0002

/-- `COND_N` (R5, R26, D2; PRESUMED, unsafe: log 2) -/
def condN : Word := 0x0004

/-- The class of a result (R27). -/
def condOf (v : Word) : Word := if v = 0 then condZ else if v.msb then condN else condP

/-- `setcc(v)`: COND recomputed from a value just written (R27). -/
def State.setcc (s : State) (v : Word) : State := s.setCond (condOf v)

/-- A destination register's write and `setcc` on it: "update flags(dest)" (R28). -/
def State.setDest (s : State) (dr : Reg) (v : Word) : State := (s.setReg dr v).setcc v

/-- The write of x[0] by GETC and IN: `setcc` only under `TRAP_IN_SETS_COND` (R28, R171, R174, D6; log 6). -/
def State.setInput (s : State) (v : Word) : State :=
  if Config.trapInSetsCond then s.setDest 0 v else s.setReg 0 v

end Sys2Proof.Machine
end

