-- ==== Sys2Proof/Machine/LoadStore.lean ====
section
/-! DEFINITION. Loads, stores and LEA (41_memory_access.md, R120 to R127). -/

namespace Sys2Proof.Machine

/-- A load's last part: `x[DR] <- MemRead(ea, 1)`, then setcc (R120 to R122). -/
def loadFrom (dr : Reg) (ea : Word) (s : State) : State := (memRead ea s).andThen fun w s' => s'.setDest dr w

/-- R120: LD, the word at pc + sext_9(PCoffset9). -/
def execLd (dr : Reg) (offset : BitVec 9) (s : State) : Host.Outcome State Fault Refusal :=
  .next (loadFrom dr (pcRelative9 s offset) s)

/-- R121: LDI, the pointer read first and the data read second. -/
def execLdi (dr : Reg) (offset : BitVec 9) (s : State) : Host.Outcome State Fault Refusal :=
  .next ((indirect9 s offset).andThen fun ea s' => loadFrom dr ea s')

/-- R122: LDR, the word at x[BaseR] + sext_6(offset6), BaseR read before DR is written. -/
def execLdr (dr base : Reg) (offset : BitVec 6) (s : State) : Host.Outcome State Fault Refusal :=
  .next (loadFrom dr (baseOffset6 s base offset) s)

/-- R123: LEA, `x[DR] <- pc + sext_9(PCoffset9)` with no memory access, then setcc. -/
def execLea (dr : Reg) (offset : BitVec 9) (s : State) : Host.Outcome State Fault Refusal :=
  .next (s.setDest dr (pcRelative9 s offset))

/-- R124: ST, x[SR] to pc + sext_9(PCoffset9). -/
def execSt (sr : Reg) (offset : BitVec 9) (s : State) : Host.Outcome State Fault Refusal :=
  .next (memWrite (pcRelative9 s offset) (s.reg sr) s)

/-- R125: STI, the pointer read first; if its poll faults, the write is not performed. -/
def execSti (sr : Reg) (offset : BitVec 9) (s : State) : Host.Outcome State Fault Refusal :=
  .next ((indirect9 s offset).andThen fun ea s' => memWrite ea (s'.reg sr) s')

/-- R126: STR, x[SR] to x[BaseR] + sext_6(offset6). -/
def execStr (sr base : Reg) (offset : BitVec 6) (s : State) : Host.Outcome State Fault Refusal :=
  .next (memWrite (baseOffset6 s base offset) (s.reg sr) s)

end Sys2Proof.Machine
end

