-- ==== Sys2Proof/Machine/Operate.lean ====
section
/-! DEFINITION. ADD, AND and NOT (40_operate.md, R100 to R105). -/

namespace Sys2Proof.Machine

/-- R100: `x[DR] <- x[SR1] + x[SR2]`, modulo 2^16, then setcc. -/
def execAddReg (dr sr1 sr2 : Reg) (s : State) : Host.Outcome State Fault Refusal :=
  .next (s.setDest dr (s.reg sr1 + s.reg sr2))

/-- R101: `x[DR] <- x[SR1] + sext_5(imm5)`, modulo 2^16, then setcc. -/
def execAddImm (dr sr1 : Reg) (imm5 : BitVec 5) (s : State) : Host.Outcome State Fault Refusal :=
  .next (s.setDest dr (s.reg sr1 + sext imm5))

/-- R102: `x[DR] <- x[SR1] & x[SR2]`, then setcc. -/
def execAndReg (dr sr1 sr2 : Reg) (s : State) : Host.Outcome State Fault Refusal :=
  .next (s.setDest dr (s.reg sr1 &&& s.reg sr2))

/-- R103: `x[DR] <- x[SR1] & sext_5(imm5)`, then setcc. -/
def execAndImm (dr sr1 : Reg) (imm5 : BitVec 5) (s : State) : Host.Outcome State Fault Refusal :=
  .next (s.setDest dr (s.reg sr1 &&& sext imm5))

/-- R104: `x[DR] <- ~x[SR]`, then setcc. -/
def execNotReg (dr sr : Reg) (s : State) : Host.Outcome State Fault Refusal :=
  .next (s.setDest dr (~~~ s.reg sr))

end Sys2Proof.Machine
end

