-- ==== Sys2Proof/Machine/Trap.lean ====
section
/-! DEFINITION. TRAP and its services (43_trap.md, R170 to R180). A service that waits in `InRead`, or that has gone
through a whole lap of memory without a terminator, stays in `State.service`, and `resumeService` goes on with it at the
next step; no instruction is fetched meanwhile (R179, R212, D15, D16; log 16, log 17). -/

namespace Sys2Proof.Machine

/-! ### Input services -/

/-- `InRead()` (R212): a byte goes to `deliver`; `EOF` and `Error` raise `Fault(InputError)` (D13); with no answer yet the
core waits, and `waiting` says in which service. -/
def awaitByte (waiting : Service) (deliver : Byte → State → State) (s : State) : State :=
  match s.ports.readAnswer with
  | .byte b => deliver b (trapReturn (s.setPorts s.ports.afterRead))
  | .eof => (trapReturn (s.setPorts s.ports.afterRead)).raise .inputError
  | .error => (trapReturn (s.setPorts s.ports.afterRead)).raise .inputError
  | .wait => (s.setPorts s.ports.afterRead).setService waiting

/-- GETC's delivery: `x[0] <- zext_16(b)`, with no echo (R171). -/
def deliverByte (b : Byte) (s : State) : State := s.setInput (zext16 b)

/-- IN's delivery: the echo first, then `x[0]`; if the echo fails, R0 is not written (R174, D23). -/
def echoByte (b : Byte) (s : State) : State := (outByte b s).andThen fun _ s' => deliverByte b s'

/-- GETC after its trap entry (R171). -/
def getcService (s : State) : State := awaitByte .getc deliverByte s

/-- IN after its prompt (R174). -/
def inService (s : State) : State := awaitByte .inRead echoByte s

/-! ### String services -/

/-- PUTS's output for one word: its low byte (R173). -/
def putWord (w : Word) (s : State) : Result Unit := outByte (low8 w) s

/-- PUTSP's output for one word: the low byte, then the high byte if it is not zero (R175, D21; log 20). -/
def putPackedWord (w : Word) (s : State) : Result Unit :=
  (outByte (low8 w) s).bind fun _ s' => if high8 w = 0 then .ok () s' else outByte (high8 w) s'

/-- How many words of a string one step reads: every address once (log 16). -/
def stringLap : Nat := 65536

/-- The loop of PUTS and PUTSP from address `a`: read a word, end at 0x0000, else output it and go on at `a + 1` modulo
2^16 (R173, R175, D15). `unfinished a` is the service left when `fuel` words had no terminator among them. -/
def stringLoop (put : Word → State → Result Unit) (unfinished : Word → Service) : Nat → Word → State → State
  | 0, a, s => s.setService (unfinished a)
  | fuel + 1, a, s =>
    (memRead a s).andThen fun w s' =>
      if w = 0 then s' else (put w s').andThen fun _ s'' => stringLoop put unfinished fuel (a + 1) s''

/-- PUTS from address `a` (R173). -/
def putsService (a : Word) (s : State) : State := stringLoop putWord .puts stringLap a s

/-- PUTSP from address `a` (R175). -/
def putspService (a : Word) (s : State) : State := stringLoop putPackedWord .putsp stringLap a s

/-! ### The instructions -/

/-- R171: GETC. -/
def execTrapGetc (s : State) : Host.Outcome State Fault Refusal := .next (getcService (trapEnter s))

/-- R172: OUT, the low byte of R0. -/
def execTrapOut (s : State) : Host.Outcome State Fault Refusal :=
  .next ((outByte (low8 ((trapEnter s).reg 0)) (trapEnter s)).andThen fun _ s' => s')

/-- R173: PUTS, from the address in R0. -/
def execTrapPuts (s : State) : Host.Outcome State Fault Refusal :=
  .next (putsService ((trapEnter s).reg 0) (trapEnter s))

/-- R174: IN: the prompt, then the read, then the echo. -/
def execTrapIn (s : State) : Host.Outcome State Fault Refusal :=
  .next ((outBytes Config.inPrompt (trapEnter s)).andThen fun _ s' => inService s')

/-- R175: PUTSP, from the address in R0. -/
def execTrapPutsp (s : State) : Host.Outcome State Fault Refusal :=
  .next (putspService ((trapEnter s).reg 0) (trapEnter s))

/-- R176: HALT: the termination message, the flush, then `halt` (R180). -/
def execTrapHalt (s : State) : Host.Outcome State Fault Refusal :=
  .next ((outBytes Config.haltMessage (trapEnter s)).andThen fun _ s' => (outFlush s').halt)

/-- R177: an invalid vector: x[7] is written, then `Fault(InvalidTrap(v))`. -/
def execTrapInvalid (vector : Byte) (s : State) : Host.Outcome State Fault Refusal :=
  .next ((trapEnter s).raise (.invalidTrap vector))

/-! ### Going on with a service (R179, R212, R219) -/

/-- The step of a core inside a trap service. -/
def resumeService (s : State) : State :=
  match s.service with
  | .idle => s
  | .getc => getcService s
  | .inRead => inService s
  | .puts a => putsService a (trapReturn s)
  | .putsp a => putspService a (trapReturn s)

end Sys2Proof.Machine
end

