-- ==== Sys2Proof/Machine/Dispatch.lean ====
section
/-! DEFINITION. exec: one arm per constructor of Instr, each one call of its meaning (R70 step 3, R81). -/

namespace Sys2Proof.Machine

def exec (i : Instr) (s : State) : Host.Outcome State Fault Refusal :=
  match i with
  | .br n z p offset => Sys2Proof.Machine.execBr n z p offset s
  | .addReg dr sr1 sr2 => Sys2Proof.Machine.execAddReg dr sr1 sr2 s
  | .addImm dr sr1 imm5 => Sys2Proof.Machine.execAddImm dr sr1 imm5 s
  | .ld dr offset => Sys2Proof.Machine.execLd dr offset s
  | .st sr offset => Sys2Proof.Machine.execSt sr offset s
  | .jsr offset => Sys2Proof.Machine.execJsr offset s
  | .jsrr base => Sys2Proof.Machine.execJsrr base s
  | .andReg dr sr1 sr2 => Sys2Proof.Machine.execAndReg dr sr1 sr2 s
  | .andImm dr sr1 imm5 => Sys2Proof.Machine.execAndImm dr sr1 imm5 s
  | .ldr dr base offset => Sys2Proof.Machine.execLdr dr base offset s
  | .str sr base offset => Sys2Proof.Machine.execStr sr base offset s
  | .rti => Sys2Proof.Machine.execRti s
  | .notReg dr sr => Sys2Proof.Machine.execNotReg dr sr s
  | .ldi dr offset => Sys2Proof.Machine.execLdi dr offset s
  | .sti sr offset => Sys2Proof.Machine.execSti sr offset s
  | .jmp base => Sys2Proof.Machine.execJmp base s
  | .ret => Sys2Proof.Machine.execRet s
  | .res => Sys2Proof.Machine.execRes s
  | .lea dr offset => Sys2Proof.Machine.execLea dr offset s
  | .trapGetc => Sys2Proof.Machine.execTrapGetc s
  | .trapOut => Sys2Proof.Machine.execTrapOut s
  | .trapPuts => Sys2Proof.Machine.execTrapPuts s
  | .trapIn => Sys2Proof.Machine.execTrapIn s
  | .trapPutsp => Sys2Proof.Machine.execTrapPutsp s
  | .trapHalt => Sys2Proof.Machine.execTrapHalt s
  | .trapInvalid vector => Sys2Proof.Machine.execTrapInvalid vector s

end Sys2Proof.Machine
end

