-- ==== Sys2Proof/Machine/Cycle.lean ====
section
/-! DEFINITION. One instruction cycle: fetch, decode, execute (R70, R71, R72). -/

namespace Sys2Proof.Machine

/-- Decode and dispatch of a fetched word (R72). -/
def dispatchWord (ir : Word) (s : State) : Host.Outcome State Fault Refusal :=
  match decode ir with
  | .ok i => exec i s
  | .error e => .fault (.decodeStop e)

/-- One instruction cycle (R70). A fault of the fetch ends the run before anything is executed (R204). -/
def instructionCycle (s : State) : Host.Outcome State Fault Refusal :=
  match fetch s with
  | .ok ir s' => dispatchWord ir s'
  | .raised s' => .next s'

end Sys2Proof.Machine
end

