-- ==== Sys2Proof/Machine/Step.lean ====
section
/-! DEFINITION. One step (R70): in RUNNING, one instruction cycle, or the going on of a trap service (R179); in HALTED or
FAULTED, nothing (R34, R70; DEDUCED: log 13). -/

namespace Sys2Proof.Machine

/-- One step of the machine. -/
def step (s : State) : Host.Outcome State Fault Refusal :=
  match s.runState with
  | .running =>
    match s.service with
    | .idle => instructionCycle s
    | .getc | .inRead | .puts _ | .putsp _ => .next (resumeService s)
  | .halted | .faulted _ => .next s

/-- `s` with one instruction word where the next step fetches: in memory at pc, with the core running and in no service.
(At pc = KBSR_ADDR no word can be placed: the fetch polls there, R52.) Log 25. -/
def State.withFetchWord (s : State) (_nbits w : Nat) : State :=
  ((s.setWord s.pc (BitVec.ofNat 16 w)).setRunState .running).setService .idle

end Sys2Proof.Machine
end

