-- ==== Sys2Proof/Machine/Loader.lean ====
section
/-! DEFINITION. The load port: the effect of an image load on the state before the first fetch (R230, R234), and the whole
reset sequence with the host's choice of `RESET_PC` (R220). It is the host's move, not a step of the core. -/

namespace Sys2Proof.Machine

/-- Why a load ends before execution: no run starts (R234). -/
inductive LoadError where
  /-- the image has no origin word: it cannot be read -/
  | unreadable
  /-- "a zero-word load is reported as a failure-to-read condition" -/
  | noWords
  deriving DecidableEq, Repr

/-- The big-endian words of a byte stream; an odd trailing byte is dropped (R234, D18; log 18). -/
def bigEndianWords : List Byte → List Word
  | hi :: lo :: rest => (hi ++ lo : BitVec 16) :: bigEndianWords rest
  | [_] => []
  | [] => []

/-- Stores words consecutively from address `a`, stopping after 0xFFFF (R234, D18; log 18): the memory and the count. -/
def loadWords : Nat → List Word → Memory → Memory × Nat
  | _, [], m => (m, 0)
  | a, w :: ws, m =>
    if a < 65536 then
      let r := loadWords (a + 1) ws (m.write (BitVec.ofNat 16 a) w)
      (r.1, r.2 + 1)
    else (m, 0)

/-- One image: the origin word, then the contents; only memory changes (R230, R234). Answers the state and the count of
words loaded. -/
def loadImage (image : List Byte) (s : State) : Except LoadError (State × Nat) :=
  match bigEndianWords image with
  | [] => .error .unreadable
  | origin :: contents =>
    let r := loadWords origin.toNat contents s.mem
    if r.2 = 0 then .error .noWords else .ok ({ s with mem := r.1 }, r.2)

/-- Step 3 of R230: the images in order, a later one over an earlier one. -/
def loadImages : List (List Byte) → State → Except LoadError State
  | [], s => .ok s
  | image :: rest, s =>
    match loadImage image s with
    | .error e => .error e
    | .ok r => loadImages rest r.1

/-- R230: create with the host's `RESET_PC` (R25, R220), load its images in order, release. The state answered is the one
of the first fetch. -/
def boot (resetPc : Word) (images : List (List Byte)) : Except LoadError State := loadImages images (.resetAt resetPc)

end Sys2Proof.Machine
end

