-- ==== Sys2Proof/Safety.lean ====
section
/-! DEFINITION. The words the claims are stated in: the invariant of the machine, what counts as a clean run, what an
instruction may change, and the host's answers to a whole sequence of output bytes. -/

namespace Sys2Proof.Machine

/-! ### The invariant -/

/-- COND holds one of its four values (R26). -/
def LegalCond (c : Word) : Prop := c = 0 ∨ c = condP ∨ c = condZ ∨ c = condN

/-- What every step keeps: memory in canonical form, a legal COND (R26), a service only while RUNNING and with its return
address in x[7] (R170, R219), the fault report that goes with the run state (the model's choice of stream, log 9), and
x[7] = pc in a HALTED state and in one that faulted on an invalid vector (R176, R177, R202). -/
structure State.Inv (s : State) : Prop where
  memory : s.mem.wf = true
  cond : LegalCond s.cond
  serviceRuns : s.service ≠ .idle → s.runState = .running ∧ s.reg linkReg = s.pc
  reportClear : (∀ r, s.runState ≠ .faulted r) → s.ports.report = []
  reportSet : ∀ r, s.runState = .faulted r → s.ports.report = Config.faultMessage r
  haltLinked : s.runState = .halted → s.reg linkReg = s.pc
  badVector : ∀ v, s.runState = .faulted (.invalidTrap v) → isServiceVector v = false ∧ s.reg linkReg = s.pc

/-- A clean run is in no FAULTED state (R201). -/
def State.Clean (s : State) : Prop := ∀ r, s.runState ≠ .faulted r

/-! ### What changes and what does not -/

/-- The class of a word by its signed reading, "consistent with the signed interpretation of the new value"
(95_test_vectors.md W2). The three values keep their names, so that no claim rests on D2. -/
def signClass (v : Word) : Word := if v.toInt = 0 then condZ else if v.toInt < 0 then condN else condP

/-- Every register outside `rs` is unchanged. -/
def RegsSameBut (rs : List Reg) (s t : State) : Prop := ∀ r, r ∉ rs → t.reg r = s.reg r

/-- Every stored word outside the addresses `as` is unchanged. -/
def MemSameBut (as : List Word) (s t : State) : Prop := ∀ a, a ∉ as → t.mem.read a = s.mem.read a

/-- Run state and service in progress are unchanged. -/
def RunSame (s t : State) : Prop := t.runState = s.runState ∧ t.service = s.service

/-- A destination register and COND are written with `v` and its class, and nothing else changes. -/
def WritesDest (dr : Reg) (v : Word) (s t : State) : Prop :=
  t.reg dr = v ∧ t.cond = signClass v ∧ RegsSameBut [dr] s t ∧ t.pc = s.pc ∧ MemSameBut [] s t ∧
    t.ports = s.ports ∧ RunSame s t

/-- The word `v` is stored at `ea`, and nothing else changes. -/
def StoresAt (ea v : Word) (s t : State) : Prop :=
  t.mem.read ea = v ∧ MemSameBut [ea] s t ∧ RegsSameBut [] s t ∧ t.cond = s.cond ∧ t.pc = s.pc ∧
    t.ports = s.ports ∧ RunSame s t

/-- Control goes to `target`, with the registers `rs` free to change, and nothing else changes. -/
def JumpsTo (target : Word) (rs : List Reg) (s t : State) : Prop :=
  t.pc = target ∧ RegsSameBut rs s t ∧ t.cond = s.cond ∧ MemSameBut [] s t ∧ t.ports = s.ports ∧ RunSame s t

/-- What a trap leaves as it was, whatever its service does: x[7] holds the return address, no register but x[7] and `rs`
changes, and neither pc nor a word of memory does. -/
def TrapFrame (rs : List Reg) (s t : State) : Prop :=
  t.reg 7 = s.pc ∧ RegsSameBut (7 :: rs) s t ∧ t.pc = s.pc ∧ MemSameBut [] s t

/-- The input stream is as it was: nothing of it was consumed (R35). -/
def InputSame (s t : State) : Prop :=
  t.ports.input = s.ports.input ∧ t.ports.inputEnds = s.ports.inputEnds ∧ t.ports.inputTaken = s.ports.inputTaken

/-- The next byte of the input stream was consumed, and no other (R35). -/
def InputTakesOne (s t : State) : Prop :=
  t.ports.input = s.ports.input.tail ∧ t.ports.inputEnds = s.ports.inputEnds ∧
    t.ports.inputTaken = s.ports.inputTaken + 1

/-- The run ends FAULTED(reason) (R203), with its message in `report`: a stream of its own is the model's choice (DESIGN
CHOICE, D20, log 9), so a claim that uses this, and what it says of the output of the FAULTED run, rests on log 9. -/
def EndsFaulted (reason : FaultReason) (t : State) : Prop :=
  t.runState = .faulted reason ∧ t.ports.report = Config.faultMessage reason

/-! ### The host's answers to a sequence of output bytes -/

/-- The host's choice at the `i`-th output byte from here, when no input transaction comes between. -/
def Ports.outChoiceAt (p : Ports) (i : Nat) : OutChoice := (p.outs[i]?).getD (Config.freeOut (p.draws + i))

/-- The host accepts the next `n` output bytes. -/
def Ports.Accepts (p : Ports) (n : Nat) : Prop := ∀ i, i < n → p.outChoiceAt i = .accept

/-- The host accepts `k` output bytes and answers `Error` to the next. -/
def Ports.FailsAt (p : Ports) (k : Nat) : Prop := p.Accepts k ∧ p.outChoiceAt k = .error

/-- The ports after the bytes `bs` were accepted. -/
def Ports.afterAccepted (p : Ports) (bs : List Byte) : Ports :=
  { p with outs := p.outs.drop bs.length, draws := p.draws + bs.length, output := p.output ++ bs }

/-! ### Strings in memory (R173, R175) -/

/-- The `n` words from address `a` up, modulo 2^16. -/
def Memory.words (m : Memory) (a : Word) (n : Nat) : List Word :=
  (List.range n).map fun i => m.read (a + BitVec.ofNat 16 i)

/-- From `a`: `n` words that are not 0x0000 and then one that is, none of them at KBSR_ADDR. -/
def Memory.HoldsString (m : Memory) (a : Word) (n : Nat) : Prop :=
  n < 65536 ∧ (∀ i, i ≤ n → a + BitVec.ofNat 16 i ≠ kbsrAddr) ∧
    (∀ i, i < n → m.read (a + BitVec.ofNat 16 i) ≠ 0) ∧ m.read (a + BitVec.ofNat 16 n) = 0

/-- PUTSP's bytes of one word: the low byte, then the high byte if it is not zero (R175). -/
def packedBytes (w : Word) : List Byte :=
  if w.extractLsb 15 8 = 0 then [w.extractLsb 7 0] else [w.extractLsb 7 0, w.extractLsb 15 8]

/-- PUTS's byte of one word (R173). -/
def lowByte (w : Word) : List Byte := [w.extractLsb 7 0]

/-- What PUTS and PUTSP, as `call`, do with a string whose `n` words run up to KBSR_ADDR (R52, R173, R175), `bytesOf` being
the bytes of a word and `goOn` the service from an address on. An output byte that fails before KBSR_ADDR faults as
elsewhere. The poll there ends the string (NotAvail: the word reads 0), faults (Error), or writes KBSR and KBDR, outputs the
bytes of 0x8000 and goes on at the next word. -/
def StringPolls (call : Instr) (bytesOf : Word → List Byte) (goOn : Nat → Word → State → State) : Prop :=
  ∀ (s : State) (n : Nat) (bs : List Byte) (p : Ports), s.mem.wf = true → n < 65536 →
    s.reg 0 + BitVec.ofNat 16 n = kbsrAddr → (∀ i, i < n → s.mem.read (s.reg 0 + BitVec.ofNat 16 i) ≠ 0) →
    bs = (s.mem.words (s.reg 0) n).flatMap bytesOf → p = s.ports.afterAccepted bs →
    (∀ k, k < bs.length → s.ports.FailsAt k → ∃ t, exec call s = .next t ∧ TrapFrame [] s t ∧ t.cond = s.cond ∧
      t.ports.output = s.ports.output ++ bs.take k ∧ InputSame s t ∧ EndsFaulted .outputError t ∧
      t.service = s.service) ∧
    (s.ports.Accepts bs.length → p.pollAnswer = .notAvail →
      ∃ t, exec call s = .next t ∧ t.reg 7 = s.pc ∧ RegsSameBut [7] s t ∧ t.pc = s.pc ∧ t.cond = s.cond ∧
        t.mem.read kbsrAddr = 0x0000 ∧ MemSameBut [kbsrAddr] s t ∧ t.ports.output = s.ports.output ++ bs ∧
        InputSame s t ∧ RunSame s t) ∧
    (s.ports.Accepts bs.length → p.pollAnswer = .error →
      ∃ t, exec call s = .next t ∧ TrapFrame [] s t ∧ t.cond = s.cond ∧ t.ports.output = s.ports.output ++ bs ∧
        InputSame s t ∧ EndsFaulted .inputError t ∧ t.service = s.service) ∧
    (∀ b, s.ports.Accepts bs.length → p.pollAnswer = .avail b →
      (p.afterPoll.Accepts (bytesOf 0x8000).length →
        ∃ u, exec call s = .next (goOn (65535 - n) (kbsrAddr + 1) u) ∧
          (s.mem.read (kbsrAddr + 1) = 0 → exec call s = .next u) ∧
          u.reg 7 = s.pc ∧ RegsSameBut [7] s u ∧ u.pc = s.pc ∧ u.cond = s.cond ∧ u.mem.read kbsrAddr = 0x8000 ∧
          u.mem.read kbdrAddr = BitVec.ofNat 16 b.toNat ∧ MemSameBut [kbsrAddr, kbdrAddr] s u ∧
          u.ports = p.afterPoll.afterAccepted (bytesOf 0x8000) ∧
          u.ports.output = s.ports.output ++ bs ++ bytesOf 0x8000 ∧ InputTakesOne s u ∧ RunSame s u) ∧
      (∀ k, k < (bytesOf 0x8000).length → p.afterPoll.FailsAt k →
        ∃ t, exec call s = .next t ∧ t.reg 7 = s.pc ∧ RegsSameBut [7] s t ∧ t.pc = s.pc ∧ t.cond = s.cond ∧
          t.mem.read kbsrAddr = 0x8000 ∧ t.mem.read kbdrAddr = BitVec.ofNat 16 b.toNat ∧
          MemSameBut [kbsrAddr, kbdrAddr] s t ∧ t.ports.output = s.ports.output ++ bs ++ (bytesOf 0x8000).take k ∧
          InputTakesOne s t ∧ EndsFaulted .outputError t ∧ t.service = s.service))

/-- What the step of a running core does inside a string service, `inside a` being the service with its next word at `a`
(R179; log 16): over a string in memory it writes the rest and ends the service, or faults at the output byte that fails;
and in RUNNING neither it nor `call` itself ends the service unless a zero word was read (R173: "If no zero word is ever
read, the service never ends"). -/
def StringGoesOn (inside : Word → Service) (call : Instr) (bytesOf : Word → List Byte) : Prop :=
  (∀ (s : State) (a : Word) (n : Nat) (bs : List Byte), s.runState = .running → s.service = inside a →
    s.mem.HoldsString a n → bs = (s.mem.words a n).flatMap bytesOf →
    (s.ports.Accepts bs.length → ∃ t, step s = .next t ∧ RegsSameBut [] s t ∧ t.pc = s.pc ∧ t.cond = s.cond ∧
      MemSameBut [] s t ∧ t.ports.output = s.ports.output ++ bs ∧ InputSame s t ∧ t.runState = .running ∧
      t.service = .idle) ∧
    (∀ k, k < bs.length → s.ports.FailsAt k → ∃ t, step s = .next t ∧ RegsSameBut [] s t ∧ t.pc = s.pc ∧
      t.cond = s.cond ∧ MemSameBut [] s t ∧ t.ports.output = s.ports.output ++ bs.take k ∧ InputSame s t ∧
      EndsFaulted .outputError t ∧ t.service = .idle)) ∧
  (∀ (s t : State) (a : Word), s.runState = .running → s.service = inside a → step s = .next t →
    t.service = .idle → t.runState = .running → ∃ b, t.mem.read b = 0) ∧
  (∀ s t : State, s.runState = .running → s.service = .idle → exec call s = .next t →
    t.service = .idle → t.runState = .running → ∃ b, t.mem.read b = 0)

/-- The bytes of an image: the origin and the contents as big-endian words (R234). -/
def imageBytes (ws : List Word) : List Byte := ws.flatMap fun w => [w.extractLsb 15 8, w.extractLsb 7 0]

/-! ### The lists of R22, R24, R28, R51 and R202 -/

/-- The registers an instruction may write (R22). -/
def writtenRegs : Instr → List Reg
  | .addReg dr _ _ | .addImm dr _ _ | .andReg dr _ _ | .andImm dr _ _ | .notReg dr _ => [dr]
  | .ld dr _ | .ldi dr _ | .ldr dr _ _ | .lea dr _ => [dr]
  | .jsr _ | .jsrr _ => [7]
  | .trapGetc | .trapIn => [7, 0]
  | .trapOut | .trapPuts | .trapPutsp | .trapHalt | .trapInvalid _ => [7]
  | .br _ _ _ _ | .st _ _ | .sti _ _ | .str _ _ _ | .jmp _ | .ret | .rti | .res => []

/-- Whether an instruction may write COND (R28). -/
def writesCond : Instr → Bool
  | .addReg _ _ _ | .addImm _ _ _ | .andReg _ _ _ | .andImm _ _ _ | .notReg _ _ => true
  | .ld _ _ | .ldi _ _ | .ldr _ _ _ | .lea _ _ => true
  | .trapGetc | .trapIn => Config.trapInSetsCond
  | .trapOut | .trapPuts | .trapPutsp | .trapHalt | .trapInvalid _ => false
  | .jsr _ | .jsrr _ | .br _ _ _ _ | .st _ _ | .sti _ _ | .str _ _ _ | .jmp _ | .ret | .rti | .res => false

/-- Whether an instruction may write pc beyond the fetch's increment (R24). -/
def writesPc : Instr → Bool
  | .br _ _ _ _ | .jmp _ | .ret | .jsr _ | .jsrr _ => true
  | .addReg _ _ _ | .addImm _ _ _ | .andReg _ _ _ | .andImm _ _ _ | .notReg _ _ => false
  | .ld _ _ | .ldi _ _ | .ldr _ _ _ | .lea _ _ | .st _ _ | .sti _ _ | .str _ _ _ | .rti | .res => false
  | .trapGetc | .trapIn | .trapOut | .trapPuts | .trapPutsp | .trapHalt | .trapInvalid _ => false

/-- The instructions that store a word (R51). -/
def storesWord : Instr → Bool
  | .st _ _ | .sti _ _ | .str _ _ _ => true
  | .br _ _ _ _ | .jmp _ | .ret | .jsr _ | .jsrr _ | .rti | .res => false
  | .addReg _ _ _ | .addImm _ _ _ | .andReg _ _ _ | .andImm _ _ _ | .notReg _ _ => false
  | .ld _ _ | .ldi _ _ | .ldr _ _ _ | .lea _ _ => false
  | .trapGetc | .trapIn | .trapOut | .trapPuts | .trapPutsp | .trapHalt | .trapInvalid _ => false

/-- The fault reasons an instruction may raise in its execution (R202's table, column "raised by"). -/
def mayRaise : Instr → FaultReason → Prop
  | .ld _ _, r | .ldr _ _ _, r | .ldi _ _, r | .sti _ _, r | .trapGetc, r => r = .inputError
  | .trapPuts, r | .trapPutsp, r | .trapIn, r => r = .inputError ∨ r = .outputError
  | .trapOut, r | .trapHalt, r => r = .outputError
  | .trapInvalid v, r => r = .invalidTrap v
  | .addReg _ _ _, _ | .addImm _ _ _, _ | .andReg _ _ _, _ | .andImm _ _ _, _ | .notReg _ _, _ => False
  | .lea _ _, _ | .st _ _, _ | .str _ _ _, _ | .br _ _ _ _, _ | .jmp _, _ | .ret, _ | .jsr _, _ | .jsrr _, _ => False
  | .rti, _ | .res, _ => False

/-- A state with another output stream, for comparing runs that differ in what was written (R213). -/
def State.withOutput (s : State) (o : List Byte) : State := s.setPorts { s.ports with output := o }

end Sys2Proof.Machine
end

