-- ==== Sys2Proof/Certificates/Slice0/Obligations.lean ====
section
/-! DEFINITION. The statements for the provers. Each is about the machine of Sys2Proof.Machine and names the rule of spec/
it formalises, or says that it rests on a decision of the spec (D<n>) or a choice of the model (log <n>). -/

open Sys2Proof Sys2Proof.Machine

/-! ### Reset, the step, and the whole machine -/

/-- R23 whole: R0 to R7 are 0x0000 at reset. -/
def Obligations.RegistersResetToZero : Prop := ∀ r : Reg, State.reset.reg r = 0x0000

/-- R23, R25 and the table of R231, whatever RESET_PC the embedding sets (R220): registers, COND and memory zero, PC at
RESET_PC, RUNNING, no output, nothing consumed, no service. The default is 0x3000 (D9, log 10). -/
def Obligations.ResetLeavesTheStatedValues : Prop :=
  (∀ p : Word, (∀ r, (State.resetAt p).reg r = 0x0000) ∧ (State.resetAt p).pc = p ∧ (State.resetAt p).cond = 0x0000 ∧
    (∀ a, (State.resetAt p).mem.read a = 0x0000) ∧ (State.resetAt p).status = .running ∧
    (State.resetAt p).ports.output = [] ∧ (State.resetAt p).ports.inputTaken = 0 ∧
    (State.resetAt p).service = .idle) ∧
  State.reset = State.resetAt 0x3000

/-- The invariant holds at reset, at the default RESET_PC (log 10) and at any other. -/
def Obligations.ResetMeetsTheInvariant : Prop := State.reset.Inv ∧ ∀ p : Word, (State.resetAt p).Inv

/-- Every step keeps the invariant: canonical memory, one of the four COND values (R26), a service only while RUNNING, the
fault report of the run state (log 9), x[7] = pc in a HALTED state and after an invalid vector (R176, R177). -/
def Obligations.StepKeepsTheInvariant : Prop :=
  ∀ s t : State, s.Inv → step s = .next t → t.Inv

/-- No illegal encoding and no stop: every step of every state answers a next state (R72, R84, and R203 as log 13 has
it). -/
def Obligations.StepAlwaysAnswersANextState : Prop :=
  ∀ s : State, ∃ t, step s = .next t

/-- R34: "Once HALTED or FAULTED, the run state never changes again, and no further instruction is fetched"; the step of
an ended run as the model has it (log 13). -/
def Obligations.AnEndedRunNeverChanges : Prop :=
  ∀ s : State, s.status ≠ .running → step s = .next s

/-- R70, R71, R72: with no service in progress and pc away from KBSR_ADDR, a step runs exactly the instruction that the
word at pc decodes to, with pc one on (modulo 2^16) and all else as it was. -/
def Obligations.StepRunsTheDecodedInstruction : Prop :=
  ∀ (s : State) (i : Instr), s.runState = .running → s.service = .idle → s.pc ≠ kbsrAddr →
    decode (s.mem.read s.pc) = .ok i → step s = exec i (s.setPc (s.pc + 1))

/-- R65, R62 and R240: a store into the word at pc is what the very next step fetches and executes. -/
def Obligations.AStoreIsSeenByTheNextFetch : Prop :=
  ∀ (sr : Reg) (s : State), s.mem.wf = true → s.runState = .running → s.service = .idle → s.pc ≠ kbsrAddr →
    ∃ t, exec (.st sr 0) s = .next t ∧ t.pc = s.pc ∧ step t = dispatchWord (s.reg sr) (t.setPc (s.pc + 1))

/-- R52 and R71 at pc = KBSR_ADDR (vectors EX1 to EX3; D4, D13, D23): a poll that finds nothing clears KBSR, one that
finds a byte writes KBSR and KBDR, both words execute as no-ops and pc moves on; an error ends the run with pc where it was.
Its report, and an output without the message, are the model's choice (log 9). -/
def Obligations.FetchAtTheKeyboardStatusPolls : Prop :=
  ∀ s : State, s.mem.wf = true → s.runState = .running → s.service = .idle → s.pc = kbsrAddr →
    (s.ports.pollAnswer = .notAvail → ∃ t, step s = .next t ∧ t.pc = kbsrAddr + 1 ∧ t.mem.read kbsrAddr = 0x0000 ∧
      MemSameBut [kbsrAddr] s t ∧ RegsSameBut [] s t ∧ t.cond = s.cond ∧ RunSame s t ∧
      t.ports.output = s.ports.output ∧ InputSame s t) ∧
    (∀ b, s.ports.pollAnswer = .avail b → ∃ t, step s = .next t ∧ t.pc = kbsrAddr + 1 ∧
      t.mem.read kbsrAddr = 0x8000 ∧ t.mem.read kbdrAddr = BitVec.ofNat 16 b.toNat ∧
      MemSameBut [kbsrAddr, kbdrAddr] s t ∧ RegsSameBut [] s t ∧ t.cond = s.cond ∧ RunSame s t ∧
      t.ports.output = s.ports.output ∧ InputTakesOne s t) ∧
    (s.ports.pollAnswer = .error → ∃ t, step s = .next t ∧ t.pc = kbsrAddr ∧ EndsFaulted .inputError t ∧
      MemSameBut [] s t ∧ RegsSameBut [] s t ∧ t.cond = s.cond ∧ t.ports.output = s.ports.output ∧ InputSame s t)

/-- R202 and R214 (D12): the codes 1, 2 and 3 that the status port shows with the reason, and nothing else of the state
counts for it. -/
def Obligations.StatusPortShowsTheRunState : Prop :=
  ∀ s : State,
    (s.runState = .running → s.status = .running) ∧ (s.runState = .halted → s.status = .halted) ∧
    (∀ v, s.runState = .faulted (.invalidTrap v) → s.status = .faulted 1 (.invalidTrap v)) ∧
    (s.runState = .faulted .inputError → s.status = .faulted 2 .inputError) ∧
    (s.runState = .faulted .outputError → s.status = .faulted 3 .outputError)

/-! ### Encoding -/

/-- Every field of every well-formed instruction survives encoding and decoding. -/
def Obligations.DecodeOfEncodeIsTheInstruction : Prop :=
  ∀ i : Instr, i.wf = true → decode (encode i) = .ok i

/-- R72, R84: no word is refused, and every word is a well-formed instruction (R82's precedence). -/
def Obligations.EveryWordIsAWellFormedInstruction : Prop :=
  ∀ w : Word, ∃ i, decode w = .ok i ∧ i.wf = true

/-- A few words of 95_test_vectors.md and what its tables say they are, and 0xF125, which R84 says is HALT (D10, log 11:
bits [11:8] are ignored). The register and immediate positions rest on D1 (log 1). -/
def Obligations.SampleWordsDecodeAsTheVectorsSay : Prop :=
  decode 0x1042 = .ok (.addReg 0 1 2) ∧ decode 0x127F = .ok (.addImm 1 1 (-1)) ∧ decode 0x98BF = .ok (.notReg 4 2) ∧
    decode 0xA604 = .ok (.ldi 3 4) ∧ decode 0x7441 = .ok (.str 2 1 1) ∧ decode 0x03FD = .ok (.br false false true (-3)) ∧
    decode 0x41C0 = .ok (.jsrr 7) ∧ decode 0xC1C0 = .ok .ret ∧ decode 0xF125 = .ok .trapHalt ∧
    decode 0xF026 = .ok (.trapInvalid 0x26)

/-- The rows of the opcode table whose field positions rest on D1 (log 1) or whose spare bits rest on D10 (log 11): a
word that matches a row is that instruction, with the fields at the bits the row gives. -/
def Obligations.DecodeFollowsTheOpcodeTable : Prop :=
  ∀ w : Word,
    (w &&& 0xF020 = 0x1000 → decode w =
      .ok (.addReg (w.extractLsb 11 9).toFin (w.extractLsb 8 6).toFin (w.extractLsb 2 0).toFin)) ∧
    (w &&& 0xF020 = 0x1020 → decode w =
      .ok (.addImm (w.extractLsb 11 9).toFin (w.extractLsb 8 6).toFin (w.extractLsb 4 0))) ∧
    (w &&& 0xF000 = 0x2000 → decode w = .ok (.ld (w.extractLsb 11 9).toFin (w.extractLsb 8 0))) ∧
    (w &&& 0xF800 = 0x4000 → decode w = .ok (.jsrr (w.extractLsb 8 6).toFin)) ∧
    (w &&& 0xF020 = 0x5000 → decode w =
      .ok (.andReg (w.extractLsb 11 9).toFin (w.extractLsb 8 6).toFin (w.extractLsb 2 0).toFin)) ∧
    (w &&& 0xF020 = 0x5020 → decode w =
      .ok (.andImm (w.extractLsb 11 9).toFin (w.extractLsb 8 6).toFin (w.extractLsb 4 0))) ∧
    (w &&& 0xF000 = 0x6000 → decode w =
      .ok (.ldr (w.extractLsb 11 9).toFin (w.extractLsb 8 6).toFin (w.extractLsb 5 0))) ∧
    (w &&& 0xF000 = 0x7000 → decode w =
      .ok (.str (w.extractLsb 11 9).toFin (w.extractLsb 8 6).toFin (w.extractLsb 5 0))) ∧
    (w &&& 0xF000 = 0x9000 → decode w = .ok (.notReg (w.extractLsb 11 9).toFin (w.extractLsb 8 6).toFin)) ∧
    (w &&& 0xF000 = 0xA000 → decode w = .ok (.ldi (w.extractLsb 11 9).toFin (w.extractLsb 8 0))) ∧
    (w &&& 0xF000 = 0xB000 → decode w = .ok (.sti (w.extractLsb 11 9).toFin (w.extractLsb 8 0))) ∧
    (w &&& 0xF000 = 0xE000 → decode w = .ok (.lea (w.extractLsb 11 9).toFin (w.extractLsb 8 0)))

/-- R82's secondary decode of TRAP on `ir[7:0]`, whatever bits [11:8] hold (D10, log 11). -/
def Obligations.TrapDecodesByItsLowByte : Prop :=
  ∀ w : Word,
    (w &&& 0xF0FF = 0xF020 → decode w = .ok .trapGetc) ∧ (w &&& 0xF0FF = 0xF021 → decode w = .ok .trapOut) ∧
    (w &&& 0xF0FF = 0xF022 → decode w = .ok .trapPuts) ∧ (w &&& 0xF0FF = 0xF023 → decode w = .ok .trapIn) ∧
    (w &&& 0xF0FF = 0xF024 → decode w = .ok .trapPutsp) ∧ (w &&& 0xF0FF = 0xF025 → decode w = .ok .trapHalt) ∧
    (w &&& 0xF000 = 0xF000 → ¬ (0x20 ≤ (w.extractLsb 7 0).toNat ∧ (w.extractLsb 7 0).toNat ≤ 0x25) →
      decode w = .ok (.trapInvalid (w.extractLsb 7 0)))

/-! ### Arithmetic, flags and memory -/

/-- The spec's own choices D2 and D3 (log 2, log 3): the three COND values and the two device addresses. -/
def Obligations.ParametersHoldTheSpecsChoices : Prop :=
  condP = 0x0001 ∧ condZ = 0x0002 ∧ condN = 0x0004 ∧ kbsrAddr = 0xFE00 ∧ kbdrAddr = 0xFE02

/-- R7: sign extension of a field of any width from 1 to 16 bits. -/
def Obligations.SignExtensionFollowsItsFormula : Prop :=
  ∀ b : Nat, 1 ≤ b → b ≤ 16 → ∀ v : BitVec b,
    (sext v).toNat = if v.getLsbD (b - 1) then (v.toNat + 2 ^ 16 - 2 ^ b) % 2 ^ 16 else v.toNat

/-- R8 whole: zero extension of a byte, and the two bytes of a word. -/
def Obligations.BytesOfAWord : Prop :=
  (∀ b : Byte, (zext16 b).toNat = b.toNat) ∧
    ∀ w : Word, (low8 w).toNat = w.toNat % 256 ∧ (high8 w).toNat = w.toNat / 256

/-- R27: setcc gives Z for 0x0000, N when bit 15 is set, else P, and changes nothing else. -/
def Obligations.SetccClassifiesTheValue : Prop :=
  ∀ (s : State) (v : Word),
    (v = 0x0000 → (s.setcc v).cond = condZ) ∧
    (v ≠ 0x0000 → v.getLsbD 15 = true → (s.setcc v).cond = condN) ∧
    (v ≠ 0x0000 → v.getLsbD 15 = false → (s.setcc v).cond = condP) ∧
    (s.setcc v).setCond s.cond = s

/-- R54: every effective address is computed modulo 2^16. -/
def Obligations.AddressesWrapModuloTheAddressSpace : Prop :=
  ∀ s : State,
    (∀ off : BitVec 9, ((pcRelative9 s off).toNat : Int) = ((s.pc.toNat : Int) + off.toInt) % 65536) ∧
    (∀ off : BitVec 11, ((pcRelative11 s off).toNat : Int) = ((s.pc.toNat : Int) + off.toInt) % 65536) ∧
    (∀ (base : Reg) (off : BitVec 6),
      ((baseOffset6 s base off).toNat : Int) = (((s.reg base).toNat : Int) + off.toInt) % 65536)

/-- R53: a write stores its word at every address, device words included, with no other effect. -/
def Obligations.MemWriteIsAPlainStore : Prop :=
  ∀ (a v : Word) (s : State), s.mem.wf = true → StoresAt a v s (memWrite a v s)

/-- R52 (its values as D4, its fault as D13): a read of any address but KBSR_ADDR is plain; at KBSR_ADDR the poll's answer
decides what is written before the word is returned. The faulted run's report and output are the model's choice (log 9). -/
def Obligations.MemReadPollsOnlyAtTheKeyboardStatus : Prop :=
  ∀ s : State, s.mem.wf = true →
    (∀ a, a ≠ kbsrAddr → memRead a s = .ok (s.mem.read a) s) ∧
    (∀ b, s.ports.pollAnswer = .avail b → ∃ t, memRead kbsrAddr s = .ok 0x8000 t ∧ t.mem.read kbsrAddr = 0x8000 ∧
      t.mem.read kbdrAddr = BitVec.ofNat 16 b.toNat ∧ MemSameBut [kbsrAddr, kbdrAddr] s t ∧ RegsSameBut [] s t ∧
      t.pc = s.pc ∧ t.cond = s.cond ∧ RunSame s t ∧ t.ports = s.ports.afterPoll) ∧
    (s.ports.pollAnswer = .notAvail → ∃ t, memRead kbsrAddr s = .ok 0x0000 t ∧ t.mem.read kbsrAddr = 0x0000 ∧
      MemSameBut [kbsrAddr] s t ∧ RegsSameBut [] s t ∧ t.pc = s.pc ∧ t.cond = s.cond ∧ RunSame s t ∧
      t.ports = s.ports.afterPoll) ∧
    (s.ports.pollAnswer = .error → ∃ t, memRead kbsrAddr s = .raised t ∧ EndsFaulted .inputError t ∧
      t.service = s.service ∧ MemSameBut [] s t ∧ RegsSameBut [] s t ∧ t.pc = s.pc ∧ t.cond = s.cond ∧
      t.ports.output = s.ports.output ∧ InputSame s t)

/-- R35, R210, R211, R212 and D13: both input transactions draw from one stream. Its next byte is the first of `input`, then
its end or a free byte (log 24). A host that answers a poll or a read gives that byte, and at the end NotAvail and EOF; a
byte answered is consumed, and no other answer consumes. -/
def Obligations.PollsAndReadsShareOneInputStream : Prop :=
  ∀ p : Ports,
    (∀ b rest, p.input = b :: rest → p.nextByte = some b) ∧
    (p.input = [] → p.inputEnds = true → p.nextByte = none) ∧
    (p.input = [] → p.inputEnds = false → p.nextByte = Config.freeInput p.inputTaken) ∧
    (∀ b, p.pollChoice = .ready → p.nextByte = some b → p.pollAnswer = .avail b) ∧
    (p.pollChoice = .ready → p.nextByte = none → p.pollAnswer = .notAvail) ∧
    (p.pollChoice = .notReady → p.pollAnswer = .notAvail) ∧ (p.pollChoice = .error → p.pollAnswer = .error) ∧
    (∀ b, p.readChoice = .answer → p.nextByte = some b → p.readAnswer = .byte b) ∧
    (p.readChoice = .answer → p.nextByte = none → p.readAnswer = .eof) ∧
    (p.readChoice = .error → p.readAnswer = .error) ∧ (p.readChoice = .wait → p.readAnswer = .wait) ∧
    (∀ b, p.pollAnswer = .avail b → p.nextByte = some b ∧ p.afterPoll.input = p.input.tail ∧
      p.afterPoll.inputTaken = p.inputTaken + 1) ∧
    (∀ b, p.readAnswer = .byte b → p.nextByte = some b ∧ p.afterRead.input = p.input.tail ∧
      p.afterRead.inputTaken = p.inputTaken + 1) ∧
    (p.nextByte = none → (∀ b, p.pollAnswer ≠ .avail b) ∧ (∀ b, p.readAnswer ≠ .byte b)) ∧
    (p.readAnswer = .eof → p.nextByte = none) ∧
    ((∀ b, p.pollAnswer ≠ .avail b) → p.afterPoll.input = p.input ∧ p.afterPoll.inputTaken = p.inputTaken) ∧
    ((∀ b, p.readAnswer ≠ .byte b) → p.afterRead.input = p.input ∧ p.afterRead.inputTaken = p.inputTaken) ∧
    p.afterPoll.inputEnds = p.inputEnds ∧ p.afterRead.inputEnds = p.inputEnds

/-- R213 and the paragraph before R170: OutBytes appends accepted bytes in order, and stops at the first Error with the
bytes before it written (D14, D23). The faulted run's report and output are the model's choice (log 9). -/
def Obligations.OutputBytesAppearInOrder : Prop :=
  ∀ (bs : List Byte) (s : State),
    (s.ports.Accepts bs.length → outBytes bs s = .ok () (s.setPorts (s.ports.afterAccepted bs))) ∧
    (∀ k, k < bs.length → s.ports.FailsAt k → ∃ t, outBytes bs s = .raised t ∧ EndsFaulted .outputError t ∧
      t.ports.output = s.ports.output ++ bs.take k ∧ t.regs = s.regs ∧ t.pc = s.pc ∧ t.cond = s.cond ∧
      t.mem = s.mem ∧ t.service = s.service ∧ InputSame s t)

/-! ### Operate instructions -/

/-- R100 to R103, their pseudocode, flags and exceptions: ADD and AND, both forms. The sums are taken on naturals modulo
2^16 and the immediates by their signed value. -/
def Obligations.AddAndAndWriteTheirResult : Prop :=
  ∀ (dr sr1 sr2 : Reg) (imm : BitVec 5) (s : State),
    (∃ t, exec (.addReg dr sr1 sr2) s = .next t ∧
      WritesDest dr (BitVec.ofNat 16 ((s.reg sr1).toNat + (s.reg sr2).toNat)) s t) ∧
    (∃ t, exec (.addImm dr sr1 imm) s = .next t ∧
      WritesDest dr (BitVec.ofInt 16 ((s.reg sr1).toInt + imm.toInt)) s t) ∧
    (∃ t, exec (.andReg dr sr1 sr2) s = .next t ∧ WritesDest dr (s.reg sr1 &&& s.reg sr2) s t) ∧
    (∃ t, exec (.andImm dr sr1 imm) s = .next t ∧ WritesDest dr (s.reg sr1 &&& BitVec.ofInt 16 imm.toInt) s t)

/-- R104, its pseudocode, flags and exceptions: NOT; the complement of v is 0xFFFF - v. -/
def Obligations.NotWritesTheComplement : Prop :=
  ∀ (dr sr : Reg) (s : State),
    ∃ t, exec (.notReg dr sr) s = .next t ∧ WritesDest dr (BitVec.ofNat 16 (0xFFFF - (s.reg sr).toNat)) s t

/-! ### Loads, stores and LEA -/

/-- R120 and R122, their pseudocode, flags and exceptions: LD and LDR read one word through MemRead, the base before DR is
written; a poll's fault ends the instruction with no register written. -/
def Obligations.LoadsWriteTheWordRead : Prop :=
  ∀ (dr base : Reg) (off9 : BitVec 9) (off6 : BitVec 6) (s : State),
    (s.pc + off9.signExtend 16 ≠ kbsrAddr → ∃ t, exec (.ld dr off9) s = .next t ∧
      WritesDest dr (s.mem.read (s.pc + off9.signExtend 16)) s t) ∧
    (∀ w s1, memRead (s.pc + off9.signExtend 16) s = .ok w s1 →
      ∃ t, exec (.ld dr off9) s = .next t ∧ WritesDest dr w s1 t) ∧
    (∀ s1, memRead (s.pc + off9.signExtend 16) s = .raised s1 → exec (.ld dr off9) s = .next s1) ∧
    (s.reg base + off6.signExtend 16 ≠ kbsrAddr → ∃ t, exec (.ldr dr base off6) s = .next t ∧
      WritesDest dr (s.mem.read (s.reg base + off6.signExtend 16)) s t) ∧
    (∀ w s1, memRead (s.reg base + off6.signExtend 16) s = .ok w s1 →
      ∃ t, exec (.ldr dr base off6) s = .next t ∧ WritesDest dr w s1 t) ∧
    (∀ s1, memRead (s.reg base + off6.signExtend 16) s = .raised s1 → exec (.ldr dr base off6) s = .next s1)

/-- R121, its pseudocode, flags and exceptions: LDI reads the pointer, then the data; either read polls at KBSR_ADDR. -/
def Obligations.LdiReadsThroughThePointer : Prop :=
  ∀ (dr : Reg) (off : BitVec 9) (s : State),
    (s.pc + off.signExtend 16 ≠ kbsrAddr → s.mem.read (s.pc + off.signExtend 16) ≠ kbsrAddr →
      ∃ t, exec (.ldi dr off) s = .next t ∧
        WritesDest dr (s.mem.read (s.mem.read (s.pc + off.signExtend 16))) s t) ∧
    (∀ ea s1 w s2, memRead (s.pc + off.signExtend 16) s = .ok ea s1 → memRead ea s1 = .ok w s2 →
      ∃ t, exec (.ldi dr off) s = .next t ∧ WritesDest dr w s2 t) ∧
    (∀ s1, memRead (s.pc + off.signExtend 16) s = .raised s1 → exec (.ldi dr off) s = .next s1) ∧
    (∀ ea s1 s2, memRead (s.pc + off.signExtend 16) s = .ok ea s1 → memRead ea s1 = .raised s2 →
      exec (.ldi dr off) s = .next s2)

/-- R123, its pseudocode, flags and exceptions: LEA writes the address and its class, and polls nothing, at any address. -/
def Obligations.LeaWritesTheAddress : Prop :=
  ∀ (dr : Reg) (off : BitVec 9) (s : State),
    ∃ t, exec (.lea dr off) s = .next t ∧ WritesDest dr (BitVec.ofInt 16 (s.pc.toInt + off.toInt)) s t

/-- R124, its encoding (the document gives all its positions), pseudocode, flags and exceptions: ST; COND and every register
stay. -/
def Obligations.StStoresTheRegister : Prop :=
  (∀ w : Word, w &&& 0xF000 = 0x3000 → decode w = .ok (.st (w.extractLsb 11 9).toFin (w.extractLsb 8 0))) ∧
    ∀ (sr : Reg) (off : BitVec 9) (s : State), s.mem.wf = true →
      ∃ t, exec (.st sr off) s = .next t ∧ StoresAt (s.pc + off.signExtend 16) (s.reg sr) s t

/-- R126, its pseudocode and exceptions: STR. -/
def Obligations.StrStoresTheRegister : Prop :=
  ∀ (sr base : Reg) (off : BitVec 6) (s : State), s.mem.wf = true →
    ∃ t, exec (.str sr base off) s = .next t ∧ StoresAt (s.reg base + off.signExtend 16) (s.reg sr) s t

/-- R125, its pseudocode and exceptions: STI reads the pointer first, and a fault of that read performs no write. -/
def Obligations.StiStoresThroughThePointer : Prop :=
  ∀ (sr : Reg) (off : BitVec 9) (s : State), s.mem.wf = true →
    (s.pc + off.signExtend 16 ≠ kbsrAddr → ∃ t, exec (.sti sr off) s = .next t ∧
      StoresAt (s.mem.read (s.pc + off.signExtend 16)) (s.reg sr) s t) ∧
    (∀ ea s1, memRead (s.pc + off.signExtend 16) s = .ok ea s1 → ∃ t, exec (.sti sr off) s = .next t ∧
      StoresAt ea (s.reg sr) s1 t) ∧
    (∀ s1, memRead (s.pc + off.signExtend 16) s = .raised s1 → exec (.sti sr off) s = .next s1)

/-! ### Control transfer -/

/-- R150 whole: BR's encoding, and the branch taken exactly when `ir[11:9] & COND` is not 0, bit 11 against COND's bit 2,
bit 10 against bit 1, bit 9 against bit 0. -/
def Obligations.BrBranchesOnTheMask : Prop :=
  (∀ w : Word, w &&& 0xF000 = 0x0000 →
    decode w = .ok (.br (w.getLsbD 11) (w.getLsbD 10) (w.getLsbD 9) (w.extractLsb 8 0))) ∧
  ∀ (n z p : Bool) (off : BitVec 9) (s : State),
    (((n = true ∧ s.cond.getLsbD 2 = true) ∨ (z = true ∧ s.cond.getLsbD 1 = true) ∨
        (p = true ∧ s.cond.getLsbD 0 = true)) →
      ∃ t, exec (.br n z p off) s = .next t ∧ JumpsTo (s.pc + off.signExtend 16) [] s t) ∧
    (¬ ((n = true ∧ s.cond.getLsbD 2 = true) ∨ (z = true ∧ s.cond.getLsbD 1 = true) ∨
        (p = true ∧ s.cond.getLsbD 0 = true)) →
      exec (.br n z p off) s = .next s)

/-- R27 and R150 together, with D2 (log 2): after setcc on a result, BRn, BRz and BRp branch exactly when that result's
signed value is negative, zero or positive. -/
def Obligations.BranchesTestTheSignOfTheLastResult : Prop :=
  ∀ (n z p : Bool) (off : BitVec 9) (v : Word) (s : State),
    ∃ t, exec (.br n z p off) (s.setcc v) = .next t ∧ t.regs = s.regs ∧ t.mem = s.mem ∧ t.ports = s.ports ∧
      t.pc = if (n = true ∧ v.toInt < 0) ∨ (z = true ∧ v.toInt = 0) ∨ (p = true ∧ 0 < v.toInt)
        then s.pc + off.signExtend 16 else s.pc

/-- R151 whole: JMP and RET, their words (BaseR in bits 8:6, RET when it is 7) and their jump to the register's value. -/
def Obligations.JmpGoesToTheRegister : Prop :=
  (∀ w : Word, w &&& 0xF000 = 0xC000 →
    decode w = .ok (if w.extractLsb 8 6 = 7 then .ret else .jmp (w.extractLsb 8 6).toFin)) ∧
  ∀ (base : Reg) (s : State),
    (∃ t, exec (.jmp base) s = .next t ∧ JumpsTo (s.reg base) [] s t) ∧
    (∃ t, exec .ret s = .next t ∧ JumpsTo (s.reg 7) [] s t)

/-- R152 whole: JSR's words, its link and its target; COND stays. -/
def Obligations.JsrLinksAndJumps : Prop :=
  (∀ w : Word, w &&& 0xF800 = 0x4800 → decode w = .ok (.jsr (w.extractLsb 10 0))) ∧
  ∀ (off : BitVec 11) (s : State),
    ∃ t, exec (.jsr off) s = .next t ∧ t.reg 7 = s.pc ∧ JumpsTo (s.pc + off.signExtend 16) [7] s t

/-- R153, its pseudocode, in the order of D11 (log 12): R7 is written before BaseR is read, so JSRR R7 falls through. -/
def Obligations.JsrrLinksBeforeItReadsTheBase : Prop :=
  ∀ (base : Reg) (s : State),
    ∃ t, exec (.jsrr base) s = .next t ∧ t.reg 7 = s.pc ∧
      JumpsTo (if base = 7 then s.pc else s.reg base) [7] s t

/-- R154 and R155 whole: every word of opcode 8 is RTI and every word of opcode 13 is RES, and neither changes anything
beyond the pc that the fetch has advanced. -/
def Obligations.RtiAndResAreNoOps : Prop :=
  (∀ w : Word, w &&& 0xF000 = 0x8000 → decode w = .ok .rti) ∧
  (∀ w : Word, w &&& 0xF000 = 0xD000 → decode w = .ok .res) ∧
  ∀ s : State, exec .rti s = .next s ∧ exec .res s = .next s

/-! ### The trap services -/

/-- R171 with R170, R212 and D13: GETC. A byte goes zero-extended to R0, with COND only under TRAP_IN_SETS_COND and no
output; EOF or an error faults with R0 as it was, its report and output being the model's choice (log 9); with no answer the
core waits in GETC, the model's form of R212's stuck state (DEDUCED, log 17). Nothing touches memory (D25). -/
def Obligations.GetcReadsOneByte : Prop :=
  ∀ s : State,
    (∀ b, s.ports.readAnswer = .byte b → ∃ t, exec .trapGetc s = .next t ∧ TrapFrame [0] s t ∧
      t.reg 0 = BitVec.ofNat 16 b.toNat ∧
      t.cond = (if Config.trapInSetsCond then signClass (BitVec.ofNat 16 b.toNat) else s.cond) ∧
      InputTakesOne s t ∧ t.ports.output = s.ports.output ∧ t.runState = s.runState ∧ t.service = .idle) ∧
    (s.ports.readAnswer = .eof ∨ s.ports.readAnswer = .error → ∃ t, exec .trapGetc s = .next t ∧ TrapFrame [] s t ∧
      t.cond = s.cond ∧ InputSame s t ∧ t.ports.output = s.ports.output ∧ EndsFaulted .inputError t ∧
      t.service = .idle) ∧
    (s.ports.readAnswer = .wait → ∃ t, exec .trapGetc s = .next t ∧ TrapFrame [] s t ∧ t.cond = s.cond ∧
      InputSame s t ∧ t.ports.output = s.ports.output ∧ t.runState = s.runState ∧ t.service = .getc)

/-- R172 with R170 and D14: OUT writes the low byte of R0, or faults with nothing written; R0 stays. The faulted run's
report and output are the model's choice (log 9). -/
def Obligations.OutWritesTheLowByte : Prop :=
  ∀ s : State,
    (s.ports.outChoice = .accept → ∃ t, exec .trapOut s = .next t ∧ TrapFrame [] s t ∧ t.cond = s.cond ∧
      t.ports.output = s.ports.output ++ [(s.reg 0).extractLsb 7 0] ∧ InputSame s t ∧ RunSame s t) ∧
    (s.ports.outChoice = .error → ∃ t, exec .trapOut s = .next t ∧ TrapFrame [] s t ∧ t.cond = s.cond ∧
      t.ports.output = s.ports.output ∧ InputSame s t ∧ EndsFaulted .outputError t ∧ t.service = s.service)

/-- R173 with R170 and D15: PUTS over a string in memory, wrapping past 0xFFFF, writes the low byte of each word and stops
at the zero word with R0 as it was; an output error at byte k faults with the k bytes before it written, the report and the
output then being the model's choice (log 9). A string through KBSR_ADDR is PutsPollsAtTheKeyboardStatus, one with no end
SplittingAStringServiceChangesNothing. -/
def Obligations.PutsWritesTheString : Prop :=
  ∀ (s : State) (n : Nat), s.mem.HoldsString (s.reg 0) n →
    (s.ports.Accepts n → ∃ t, exec .trapPuts s = .next t ∧ TrapFrame [] s t ∧ t.cond = s.cond ∧
      t.ports.output = s.ports.output ++ (s.mem.words (s.reg 0) n).map (fun w => w.extractLsb 7 0) ∧
      InputSame s t ∧ RunSame s t) ∧
    (∀ k, k < n → s.ports.FailsAt k → ∃ t, exec .trapPuts s = .next t ∧ TrapFrame [] s t ∧ t.cond = s.cond ∧
      t.ports.output = s.ports.output ++ (s.mem.words (s.reg 0) k).map (fun w => w.extractLsb 7 0) ∧
      InputSame s t ∧ EndsFaulted .outputError t ∧ t.service = s.service)

/-- R173, R175 and R52 (vector TR13; D4, D13, D14): a PUTS or PUTSP string that runs into KBSR_ADDR polls there. NotAvail
ends it with KBSR cleared, an error faults, and a byte found writes KBSR and KBDR and lets the string go on past the word
0x8000, whose bytes are 0x00 (PUTS) and 0x00, 0x80 (PUTSP). The bytes of the words before are written in each case. A
faulted run's report and output are the model's choice (log 9); that a step's string goes on for 65536 words is log 16. -/
def Obligations.PutsPollsAtTheKeyboardStatus : Prop :=
  StringPolls .trapPuts lowByte (stringLoop putWord .puts) ∧
    StringPolls .trapPutsp packedBytes (stringLoop putPackedWord .putsp)

/-- R174 with R170, D7 and D23: IN writes the prompt, reads a byte, echoes it, and only then writes R0; what fails first
decides the fault, and R0 is written only when the echo was accepted. The wait is the model's form of R212's stuck state
(DEDUCED, log 17), and a faulted run's report and output are the model's choice (log 9). -/
def Obligations.InPromptsReadsAndEchoes : Prop :=
  ∀ s : State,
    (s.ports.Accepts Config.inPrompt.length →
      (∀ b, (s.ports.afterAccepted Config.inPrompt).readAnswer = .byte b →
        ((s.ports.afterAccepted Config.inPrompt).afterRead.outChoice = .accept →
          ∃ t, exec .trapIn s = .next t ∧ TrapFrame [0] s t ∧ t.reg 0 = BitVec.ofNat 16 b.toNat ∧
            t.cond = (if Config.trapInSetsCond then signClass (BitVec.ofNat 16 b.toNat) else s.cond) ∧
            t.ports.output = s.ports.output ++ Config.inPrompt ++ [b] ∧ InputTakesOne s t ∧
            t.runState = s.runState ∧ t.service = .idle) ∧
        ((s.ports.afterAccepted Config.inPrompt).afterRead.outChoice = .error →
          ∃ t, exec .trapIn s = .next t ∧ TrapFrame [] s t ∧ t.cond = s.cond ∧
            t.ports.output = s.ports.output ++ Config.inPrompt ∧ InputTakesOne s t ∧
            EndsFaulted .outputError t ∧ t.service = .idle)) ∧
      ((s.ports.afterAccepted Config.inPrompt).readAnswer = .eof ∨
          (s.ports.afterAccepted Config.inPrompt).readAnswer = .error →
        ∃ t, exec .trapIn s = .next t ∧ TrapFrame [] s t ∧ t.cond = s.cond ∧
          t.ports.output = s.ports.output ++ Config.inPrompt ∧ InputSame s t ∧ EndsFaulted .inputError t ∧
          t.service = .idle) ∧
      ((s.ports.afterAccepted Config.inPrompt).readAnswer = .wait →
        ∃ t, exec .trapIn s = .next t ∧ TrapFrame [] s t ∧ t.cond = s.cond ∧
          t.ports.output = s.ports.output ++ Config.inPrompt ∧ InputSame s t ∧ t.runState = s.runState ∧
          t.service = .inRead)) ∧
    (∀ k, k < Config.inPrompt.length → s.ports.FailsAt k →
      ∃ t, exec .trapIn s = .next t ∧ TrapFrame [] s t ∧ t.cond = s.cond ∧
        t.ports.output = s.ports.output ++ Config.inPrompt.take k ∧ InputSame s t ∧ EndsFaulted .outputError t ∧
        t.service = s.service)

/-- R175 with R170, D15 and D21 (log 20): PUTSP writes each word's low byte, then its high byte if it is not zero, and
stops at the zero word; an output error faults with the bytes before it written, the report and the output then being the
model's choice (log 9). A string through KBSR_ADDR is PutsPollsAtTheKeyboardStatus, one with no end
SplittingAStringServiceChangesNothing. -/
def Obligations.PutspWritesThePackedString : Prop :=
  ∀ (s : State) (n : Nat), s.mem.HoldsString (s.reg 0) n →
    (s.ports.Accepts ((s.mem.words (s.reg 0) n).flatMap packedBytes).length →
      ∃ t, exec .trapPutsp s = .next t ∧ TrapFrame [] s t ∧ t.cond = s.cond ∧
        t.ports.output = s.ports.output ++ (s.mem.words (s.reg 0) n).flatMap packedBytes ∧
        InputSame s t ∧ RunSame s t) ∧
    (∀ k, k < ((s.mem.words (s.reg 0) n).flatMap packedBytes).length → s.ports.FailsAt k →
      ∃ t, exec .trapPutsp s = .next t ∧ TrapFrame [] s t ∧ t.cond = s.cond ∧
        t.ports.output = s.ports.output ++ ((s.mem.words (s.reg 0) n).flatMap packedBytes).take k ∧
        InputSame s t ∧ EndsFaulted .outputError t ∧ t.service = s.service)

/-- R180: `halt` sets HALTED and keeps registers, COND, memory, pc, the ports and the service; the end is told apart from
every FAULTED one (D12). "No further fetch happens" as the model has it: a step answers the same state (DEDUCED, log 13). -/
def Obligations.HaltKeepsEverythingElse : Prop :=
  ∀ s : State, s.halt.runState = .halted ∧ s.halt.regs = s.regs ∧ s.halt.cond = s.cond ∧ s.halt.mem = s.mem ∧
    s.halt.pc = s.pc ∧ s.halt.ports = s.ports ∧ s.halt.service = s.service ∧ step s.halt = .next s.halt ∧
    s.halt.status = .halted ∧ ∀ reason, (s.raise reason).status ≠ .halted

/-- R176 with R170, R180, D8 and D14: HALT writes R7 and the message and ends the run HALTED; if the message fails, the run
ends FAULTED(OutputError), its report and output being the model's choice (log 9). -/
def Obligations.HaltEndsTheRun : Prop :=
  ∀ s : State,
    (s.ports.Accepts Config.haltMessage.length → ∃ t, exec .trapHalt s = .next t ∧ TrapFrame [] s t ∧
      t.cond = s.cond ∧ t.runState = .halted ∧ t.ports.output = s.ports.output ++ Config.haltMessage ∧
      InputSame s t ∧ t.service = s.service) ∧
    (∀ k, k < Config.haltMessage.length → s.ports.FailsAt k → ∃ t, exec .trapHalt s = .next t ∧ TrapFrame [] s t ∧
      t.cond = s.cond ∧ t.ports.output = s.ports.output ++ Config.haltMessage.take k ∧ InputSame s t ∧
      EndsFaulted .outputError t ∧ t.service = s.service)

/-- R177 with R170 and R203: an unrecognised vector writes R7 and then raises Fault(InvalidTrap(v)), with nothing output;
its message goes to the report (D20, log 9). -/
def Obligations.AnInvalidVectorFaultsAfterTheLink : Prop :=
  ∀ (v : Byte) (s : State),
    ∃ t, exec (.trapInvalid v) s = .next t ∧ TrapFrame [] s t ∧ t.cond = s.cond ∧
      t.ports.output = s.ports.output ∧ InputSame s t ∧ EndsFaulted (.invalidTrap v) t ∧ t.service = s.service

/-- R212, R219 (log 17): a core waiting in GETC or IN does nothing but wait until the host answers; a byte is then
delivered to R0, with the echo first for IN; EOF, an error, or a failed echo faults, the report and the output then being
the model's choice (log 9). -/
def Obligations.AWaitingCoreOnlyWaits : Prop :=
  ∀ s : State, s.runState = .running →
    (s.service = .getc ∨ s.service = .inRead → s.ports.readAnswer = .wait →
      ∃ t, step s = .next t ∧ RegsSameBut [] s t ∧ t.pc = s.pc ∧ t.cond = s.cond ∧ MemSameBut [] s t ∧ RunSame s t ∧
        InputSame s t ∧ t.ports.output = s.ports.output) ∧
    (s.service = .getc ∨ s.service = .inRead → s.ports.readAnswer = .eof ∨ s.ports.readAnswer = .error →
      ∃ t, step s = .next t ∧ RegsSameBut [] s t ∧ t.pc = s.pc ∧ t.cond = s.cond ∧ MemSameBut [] s t ∧
        InputSame s t ∧ t.ports.output = s.ports.output ∧ EndsFaulted .inputError t ∧ t.service = .idle) ∧
    (∀ b, s.service = .getc → s.ports.readAnswer = .byte b →
      ∃ t, step s = .next t ∧ t.reg 0 = BitVec.ofNat 16 b.toNat ∧ RegsSameBut [0] s t ∧ t.pc = s.pc ∧
        t.cond = (if Config.trapInSetsCond then signClass (BitVec.ofNat 16 b.toNat) else s.cond) ∧
        MemSameBut [] s t ∧ InputTakesOne s t ∧ t.ports.output = s.ports.output ∧ t.runState = .running ∧
        t.service = .idle) ∧
    (∀ b, s.service = .inRead → s.ports.readAnswer = .byte b → s.ports.afterRead.outChoice = .accept →
      ∃ t, step s = .next t ∧ t.reg 0 = BitVec.ofNat 16 b.toNat ∧ RegsSameBut [0] s t ∧ t.pc = s.pc ∧
        t.cond = (if Config.trapInSetsCond then signClass (BitVec.ofNat 16 b.toNat) else s.cond) ∧
        MemSameBut [] s t ∧ InputTakesOne s t ∧ t.ports.output = s.ports.output ++ [b] ∧ t.runState = .running ∧
        t.service = .idle) ∧
    (∀ b, s.service = .inRead → s.ports.readAnswer = .byte b → s.ports.afterRead.outChoice = .error →
      ∃ t, step s = .next t ∧ RegsSameBut [] s t ∧ t.pc = s.pc ∧ t.cond = s.cond ∧ MemSameBut [] s t ∧
        InputTakesOne s t ∧ t.ports.output = s.ports.output ∧ EndsFaulted .outputError t ∧ t.service = .idle)

/-- R179 and D16 (log 16), for PUTS and PUTSP: splitting a string after m words and going on with it later gives the same
end as running it through; a core inside a string service goes on with it from its next word and fetches nothing; over a
string in memory it writes the rest and ends the service, and without a zero word (D15) the service never ends. A faulted
run's report and output are the model's choice (log 9). -/
def Obligations.SplittingAStringServiceChangesNothing : Prop :=
  (∀ (m n : Nat) (a : Word) (s : State), s.service = .idle →
    stringLoop putWord .puts (m + n) a s =
      (match (stringLoop putWord .puts m a s).service with
      | .puts b => stringLoop putWord .puts n b (trapReturn (stringLoop putWord .puts m a s))
      | _ => stringLoop putWord .puts m a s) ∧
    stringLoop putPackedWord .putsp (m + n) a s =
      (match (stringLoop putPackedWord .putsp m a s).service with
      | .putsp b => stringLoop putPackedWord .putsp n b (trapReturn (stringLoop putPackedWord .putsp m a s))
      | _ => stringLoop putPackedWord .putsp m a s)) ∧
  (∀ (a : Word) (s : State), s.runState = .running →
    (s.service = .puts a → step s = .next (stringLoop putWord .puts 65536 a (trapReturn s))) ∧
    (s.service = .putsp a → step s = .next (stringLoop putPackedWord .putsp 65536 a (trapReturn s)))) ∧
  StringGoesOn .puts .trapPuts lowByte ∧ StringGoesOn .putsp .trapPutsp packedBytes

/-! ### Rules over all instructions -/

/-- R22: no instruction changes a register that R22's table does not list for it. -/
def Obligations.OnlyListedRegistersAreWritten : Prop :=
  ∀ (i : Instr) (s t : State), exec i s = .next t → RegsSameBut (writtenRegs i) s t

/-- R28: no instruction outside R28's list changes COND; GETC and IN are in it only under TRAP_IN_SETS_COND. -/
def Obligations.OnlyListedInstructionsWriteCond : Prop :=
  ∀ (i : Instr) (s t : State), writesCond i = false → exec i s = .next t → t.cond = s.cond

/-- R24: beyond the fetch's increment only BR, JMP (RET), JSR and JSRR write pc. -/
def Obligations.OnlyControlTransfersWritePc : Prop :=
  ∀ (i : Instr) (s t : State), writesPc i = false → exec i s = .next t → t.pc = s.pc

/-- R51: outside KBSR and KBDR, which a poll may write, only ST, STI and STR change memory. -/
def Obligations.OnlyStoresAndPollsChangeMemory : Prop :=
  ∀ (i : Instr) (s t : State), s.mem.wf = true → storesWord i = false → exec i s = .next t →
    MemSameBut [kbsrAddr, kbdrAddr] s t

/-- R29: but for BR, what an instruction does to everything except COND is the same whatever COND holds. (COND itself, which
an instruction that does not write it passes on, is set to 0 on both sides of the comparison.) -/
def Obligations.OnlyBrReadsCond : Prop :=
  ∀ (i : Instr) (c : Word) (s t : State), (∀ n z p off, i ≠ .br n z p off) → exec i s = .next t →
    ∃ t', exec i (s.setCond c) = .next t' ∧ t'.setCond 0 = t.setCond 0

/-- R202's table and R176: a running machine's instruction raises only the reasons listed for it, and only HALT halts. -/
def Obligations.FaultsAndHaltsComeFromTheListedInstructions : Prop :=
  ∀ (i : Instr) (s t : State), s.runState = .running → exec i s = .next t →
    (∀ r, t.runState = .faulted r → mayRaise i r) ∧ (t.runState = .halted → i = .trapHalt)

/-- R213: a step only appends to the output stream. -/
def Obligations.StepOnlyAppendsToTheOutput : Prop :=
  ∀ s t : State, step s = .next t → ∃ bs, t.ports.output = s.ports.output ++ bs

/-- R35, R210: a step consumes the listed bytes of the input stream in order, and gives none back. -/
def Obligations.StepConsumesTheInputInOrder : Prop :=
  ∀ s t : State, step s = .next t →
    s.ports.inputTaken ≤ t.ports.inputTaken ∧ t.ports.inputEnds = s.ports.inputEnds ∧
      t.ports.input = s.ports.input.drop (t.ports.inputTaken - s.ports.inputTaken)

/-- R213, "The core never reads the output back": states that differ only in what was written before step to states that
differ only there, with the same bytes written by the step. -/
def Obligations.TheOutputIsNeverReadBack : Prop :=
  ∀ (s t : State) (o : List Byte), step s = .next t →
    ∃ bs, t.ports.output = s.ports.output ++ bs ∧ step (s.withOutput o) = .next (t.withOutput (o ++ bs))

/-! ### The load port -/

/-- R230 and R234, with D18 (log 18) at the top of memory and for an odd byte: an image puts its contents at consecutive
addresses from its origin up to 0xFFFF, counts the words loaded, and changes nothing but memory; an image of the origin
word alone is an error. -/
def Obligations.AnImageLoadsConsecutively : Prop :=
  ∀ (origin : Word) (ws : List Word) (odd : List Byte) (s : State), s.mem.wf = true → odd.length ≤ 1 →
    (ws ≠ [] → ∃ t, loadImage (imageBytes (origin :: ws) ++ odd) s =
        .ok (t, min ws.length (65536 - origin.toNat)) ∧
      (∀ k w, k < 65536 - origin.toNat → ws[k]? = some w → t.mem.read (origin + BitVec.ofNat 16 k) = w) ∧
      (∀ a : Word, (a.toNat < origin.toNat ∨ origin.toNat + ws.length ≤ a.toNat) → t.mem.read a = s.mem.read a) ∧
      t.regs = s.regs ∧ t.pc = s.pc ∧ t.cond = s.cond ∧ t.ports = s.ports ∧ RunSame s t) ∧
    (ws = [] → loadImage (imageBytes (origin :: ws) ++ odd) s = .error .noWords)

/-- R230, R220 and R234 for any list of images (D18, log 18, at the top of memory and for an odd byte): they load in the
order given, each after those before it, so a later one overwrites an earlier one where they overlap; a load that fails ends
the load, an image shorter than its origin word fails, and the core that boots starts at the host's RESET_PC (log 10) with
the reset values of all but memory. -/
def Obligations.ImagesLoadInOrder : Prop :=
  (∀ s : State, loadImages [] s = .ok s) ∧
  (∀ (images rest : List (List Byte)) (s : State) (e : LoadError), loadImages images s = .error e →
    loadImages (images ++ rest) s = .error e) ∧
  (∀ (image : List Byte) (s : State), image.length < 2 → loadImage image s = .error .unreadable) ∧
  (∀ (images : List (List Byte)) (image : List Byte) (s u : State) (e : LoadError), loadImages images s = .ok u →
    loadImage image u = .error e → loadImages (images ++ [image]) s = .error e) ∧
  (∀ (images : List (List Byte)) (origin : Word) (ws : List Word) (odd : List Byte) (s u : State), s.mem.wf = true →
    odd.length ≤ 1 → ws ≠ [] → loadImages images s = .ok u →
    ∃ t, loadImages (images ++ [imageBytes (origin :: ws) ++ odd]) s = .ok t ∧
      (∀ k w, k < 65536 - origin.toNat → ws[k]? = some w → t.mem.read (origin + BitVec.ofNat 16 k) = w) ∧
      (∀ a : Word, (a.toNat < origin.toNat ∨ origin.toNat + ws.length ≤ a.toNat) → t.mem.read a = u.mem.read a) ∧
      t.mem.wf = true ∧ t.regs = s.regs ∧ t.pc = s.pc ∧ t.cond = s.cond ∧ t.ports = s.ports ∧ RunSame s t) ∧
  (∀ (p : Word) (images : List (List Byte)) (t : State), boot p images = .ok t → t.pc = p ∧ (∀ r, t.reg r = 0x0000) ∧
    t.cond = 0x0000 ∧ t.status = .running ∧ t.service = .idle ∧ t.ports = (State.resetAt p).ports)
end

