-- ==== Sys2Proof/Laws/Decode.lean ====
section
/-! SUPPORT. What a field of an encoded word reads as: the field that was placed there, and nothing of the others. -/

namespace Sys2Proof

/-- A placed field reads back. -/
theorem extract_place_self {n : Nat} (lo : Nat) (v : BitVec n) (h : lo + n ≤ 16) :
    (place lo v).extractLsb' lo n = v := by
  ext i hi
  have h1 : lo + i < 16 := by omega
  simp [place, h1, hi]

/-- A field reads nothing of a field placed elsewhere. -/
theorem extract_place_other {n : Nat} (lo k lo' : Nat) (v : BitVec n) (h : lo' + n ≤ lo ∨ lo + k ≤ lo') :
    (place lo' v).extractLsb' lo k = 0 := by
  ext i hi
  simp only [place, BitVec.getElem_extractLsb', BitVec.getLsbD_shiftLeft, BitVec.getLsbD_setWidth]
  rcases h with h | h
  · have : n ≤ lo + i - lo' := by omega
    simp [BitVec.getLsbD_of_ge _ _ this]
  · have : lo + i < lo' := by omega
    simp [this]

/-- A single bit of a placed field. -/
theorem getLsbD_place {n : Nat} (lo i : Nat) (v : BitVec n) :
    (place lo v).getLsbD i = (decide (i < 16) && !decide (i < lo) && v.getLsbD (i - lo)) := by
  by_cases h : i < 16
  · have h2 : i - lo < 16 := by omega
    simp [place, h2]
  · simp [place, h]

/-- The same bit, written as simp writes it. -/
theorem getElem_place {n : Nat} (lo i : Nat) (v : BitVec n) (h : i < 16) :
    (place lo v)[i] = (!decide (i < lo) && v.getLsbD (i - lo)) := by
  rw [← BitVec.getLsbD_eq_getElem, getLsbD_place]
  simp [h]

/-- A register placed at `lo` reads back as itself. -/
theorem regField_ofFin (lo : Nat) (r : Reg) (h : lo + 3 ≤ 16) : regField lo (placeReg lo r) = r := by
  simp only [regField, placeReg]
  rw [extract_place_self lo _ h]

theorem extract_or (lo k : Nat) (a b : Word) :
    (a ||| b).extractLsb' lo k = a.extractLsb' lo k ||| b.extractLsb' lo k := by
  ext i hi
  simp

/-- The opcode field of a word whose other fields lie below bit 12. -/
theorem opcodeField_placeOpcode (op : Nat) (h : op < 16) : opcodeField (placeOpcode op) = op := by
  simp only [opcodeField, placeOpcode]
  rw [extract_place_self layoutOpcode _ (by decide)]
  simp [BitVec.toNat_ofNat, Nat.mod_eq_of_lt h]

/-- A field below bit 12 does not reach the opcode. -/
theorem opcodeField_or_place {n : Nat} (w : Word) (lo : Nat) (v : BitVec n) (h : lo + n ≤ 12) :
    opcodeField (w ||| place lo v) = opcodeField w := by
  simp only [opcodeField]
  rw [extract_or, extract_place_other layoutOpcode 4 lo v (.inl h)]
  simp

theorem opcodeField_or_placeReg (w : Word) (lo : Nat) (r : Reg) (h : lo + 3 ≤ 12) :
    opcodeField (w ||| placeReg lo r) = opcodeField w := opcodeField_or_place w lo _ h

end Sys2Proof
end

