-- ==== Sys2Proof/Laws/State.lean ====
section
/-! SUPPORT. One lemma per field per update of State and Ports, and the register file's laws. -/

namespace Sys2Proof.Machine

variable (s : State) (r r' : Reg) (v a : Word) (x : RunState) (y : Service) (p : Ports) (o : List Byte)

@[simp] theorem setReg_pc : (s.setReg r v).pc = s.pc := rfl
@[simp] theorem setReg_cond : (s.setReg r v).cond = s.cond := rfl
@[simp] theorem setReg_mem : (s.setReg r v).mem = s.mem := rfl
@[simp] theorem setReg_runState : (s.setReg r v).runState = s.runState := rfl
@[simp] theorem setReg_service : (s.setReg r v).service = s.service := rfl
@[simp] theorem setReg_ports : (s.setReg r v).ports = s.ports := rfl

@[simp] theorem setPc_pc : (s.setPc v).pc = v := rfl
@[simp] theorem setPc_reg : (s.setPc v).reg r = s.reg r := rfl
@[simp] theorem setPc_cond : (s.setPc v).cond = s.cond := rfl
@[simp] theorem setPc_mem : (s.setPc v).mem = s.mem := rfl
@[simp] theorem setPc_runState : (s.setPc v).runState = s.runState := rfl
@[simp] theorem setPc_service : (s.setPc v).service = s.service := rfl
@[simp] theorem setPc_ports : (s.setPc v).ports = s.ports := rfl

@[simp] theorem setCond_pc : (s.setCond v).pc = s.pc := rfl
@[simp] theorem setCond_reg : (s.setCond v).reg r = s.reg r := rfl
@[simp] theorem setCond_cond : (s.setCond v).cond = v := rfl
@[simp] theorem setCond_mem : (s.setCond v).mem = s.mem := rfl
@[simp] theorem setCond_runState : (s.setCond v).runState = s.runState := rfl
@[simp] theorem setCond_service : (s.setCond v).service = s.service := rfl
@[simp] theorem setCond_ports : (s.setCond v).ports = s.ports := rfl

@[simp] theorem setWord_pc : (s.setWord a v).pc = s.pc := rfl
@[simp] theorem setWord_reg : (s.setWord a v).reg r = s.reg r := rfl
@[simp] theorem setWord_cond : (s.setWord a v).cond = s.cond := rfl
@[simp] theorem setWord_mem : (s.setWord a v).mem = s.mem.write a v := rfl
@[simp] theorem setWord_runState : (s.setWord a v).runState = s.runState := rfl
@[simp] theorem setWord_service : (s.setWord a v).service = s.service := rfl
@[simp] theorem setWord_ports : (s.setWord a v).ports = s.ports := rfl

@[simp] theorem setRunState_pc : (s.setRunState x).pc = s.pc := rfl
@[simp] theorem setRunState_reg : (s.setRunState x).reg r = s.reg r := rfl
@[simp] theorem setRunState_cond : (s.setRunState x).cond = s.cond := rfl
@[simp] theorem setRunState_mem : (s.setRunState x).mem = s.mem := rfl
@[simp] theorem setRunState_runState : (s.setRunState x).runState = x := rfl
@[simp] theorem setRunState_service : (s.setRunState x).service = s.service := rfl
@[simp] theorem setRunState_ports : (s.setRunState x).ports = s.ports := rfl

@[simp] theorem setService_pc : (s.setService y).pc = s.pc := rfl
@[simp] theorem setService_reg : (s.setService y).reg r = s.reg r := rfl
@[simp] theorem setService_cond : (s.setService y).cond = s.cond := rfl
@[simp] theorem setService_mem : (s.setService y).mem = s.mem := rfl
@[simp] theorem setService_runState : (s.setService y).runState = s.runState := rfl
@[simp] theorem setService_service : (s.setService y).service = y := rfl
@[simp] theorem setService_ports : (s.setService y).ports = s.ports := rfl

@[simp] theorem setPorts_pc : (s.setPorts p).pc = s.pc := rfl
@[simp] theorem setPorts_reg : (s.setPorts p).reg r = s.reg r := rfl
@[simp] theorem setPorts_cond : (s.setPorts p).cond = s.cond := rfl
@[simp] theorem setPorts_mem : (s.setPorts p).mem = s.mem := rfl
@[simp] theorem setPorts_runState : (s.setPorts p).runState = s.runState := rfl
@[simp] theorem setPorts_service : (s.setPorts p).service = s.service := rfl
@[simp] theorem setPorts_ports : (s.setPorts p).ports = p := rfl

@[simp] theorem raise_pc (f : FaultReason) : (s.raise f).pc = s.pc := rfl
@[simp] theorem raise_reg (f : FaultReason) : (s.raise f).reg r = s.reg r := rfl
@[simp] theorem raise_cond (f : FaultReason) : (s.raise f).cond = s.cond := rfl
@[simp] theorem raise_mem (f : FaultReason) : (s.raise f).mem = s.mem := rfl
@[simp] theorem raise_runState (f : FaultReason) : (s.raise f).runState = .faulted f := rfl
@[simp] theorem raise_service (f : FaultReason) : (s.raise f).service = s.service := rfl
@[simp] theorem raise_ports (f : FaultReason) :
    (s.raise f).ports = { s.ports with report := Config.faultMessage f } := rfl

@[simp] theorem halt_pc : s.halt.pc = s.pc := rfl
@[simp] theorem halt_reg : s.halt.reg r = s.reg r := rfl
@[simp] theorem halt_cond : s.halt.cond = s.cond := rfl
@[simp] theorem halt_mem : s.halt.mem = s.mem := rfl
@[simp] theorem halt_runState : s.halt.runState = .halted := rfl
@[simp] theorem halt_service : s.halt.service = s.service := rfl
@[simp] theorem halt_ports : s.halt.ports = s.ports := rfl

@[simp] theorem withOutput_pc : (s.withOutput o).pc = s.pc := rfl
@[simp] theorem withOutput_reg : (s.withOutput o).reg r = s.reg r := rfl
@[simp] theorem withOutput_cond : (s.withOutput o).cond = s.cond := rfl
@[simp] theorem withOutput_mem : (s.withOutput o).mem = s.mem := rfl
@[simp] theorem withOutput_runState : (s.withOutput o).runState = s.runState := rfl
@[simp] theorem withOutput_service : (s.withOutput o).service = s.service := rfl
@[simp] theorem withOutput_ports : (s.withOutput o).ports = { s.ports with output := o } := rfl

/-- A register reads what was last written to it. -/
@[simp] theorem setReg_reg_self : (s.setReg r v).reg r = v := by
  simp [State.setReg, State.reg]

/-- A write leaves every other register alone. -/
@[simp] theorem setReg_reg_other (h : r' ≠ r) : (s.setReg r v).reg r' = s.reg r' := by
  have hv : r.val ≠ r'.val := fun e => h (Fin.ext e.symm)
  simp [State.setReg, State.reg, Vector.getElem_set_ne, hv]

@[simp] theorem trapEnter_pc : (trapEnter s).pc = s.pc := rfl
@[simp] theorem trapEnter_cond : (trapEnter s).cond = s.cond := rfl
@[simp] theorem trapEnter_mem : (trapEnter s).mem = s.mem := rfl
@[simp] theorem trapEnter_runState : (trapEnter s).runState = s.runState := rfl
@[simp] theorem trapEnter_service : (trapEnter s).service = s.service := rfl
@[simp] theorem trapEnter_ports : (trapEnter s).ports = s.ports := rfl

@[simp] theorem trapReturn_regs : (trapReturn s).regs = s.regs := rfl
@[simp] theorem trapReturn_reg : (trapReturn s).reg r = s.reg r := rfl
@[simp] theorem trapReturn_pc : (trapReturn s).pc = s.pc := rfl
@[simp] theorem trapReturn_cond : (trapReturn s).cond = s.cond := rfl
@[simp] theorem trapReturn_mem : (trapReturn s).mem = s.mem := rfl
@[simp] theorem trapReturn_runState : (trapReturn s).runState = s.runState := rfl
@[simp] theorem trapReturn_service : (trapReturn s).service = .idle := rfl
@[simp] theorem trapReturn_ports : (trapReturn s).ports = s.ports := rfl

@[simp] theorem resetAt_pc : (State.resetAt v).pc = v := rfl
@[simp] theorem resetAt_cond : (State.resetAt v).cond = 0 := rfl
@[simp] theorem resetAt_mem : (State.resetAt v).mem = [] := rfl
@[simp] theorem resetAt_runState : (State.resetAt v).runState = .running := rfl
@[simp] theorem resetAt_service : (State.resetAt v).service = .idle := rfl
@[simp] theorem resetAt_output : (State.resetAt v).ports.output = [] := rfl
@[simp] theorem resetAt_report : (State.resetAt v).ports.report = [] := rfl
@[simp] theorem resetAt_inputTaken : (State.resetAt v).ports.inputTaken = 0 := rfl
@[simp] theorem resetAt_reg : (State.resetAt v).reg r = 0 := by
  simp [State.resetAt, State.reg]

/-- TRAP's common part saves the return address in x[7] (R170). -/
@[simp] theorem trapEnter_link : (trapEnter s).reg 7 = s.pc := setReg_reg_self s 7 s.pc

/-- TRAP's common part changes no other register (R207). -/
@[simp] theorem trapEnter_reg (h : r ≠ 7) : (trapEnter s).reg r = s.reg r := setReg_reg_other s 7 r s.pc h

end Sys2Proof.Machine
end

