-- ==== Sys2Proof/Laws/Memory.lean ====
section
/-! SUPPORT. The laws of memory: read after write, and that every write keeps the canonical form. -/

namespace Sys2Proof.Machine

/-- A canonical list from `lo` up has no entry below `lo`. -/
theorem lookupCell_below {m : List Cell} {lo a : Nat} (h : cellsFrom lo m = true) (ha : a < lo) :
    lookupCell m a = memoryReset := by
  cases m with
  | nil => rfl
  | cons c rest =>
    obtain ⟨k, w⟩ := c
    simp only [cellsFrom, Bool.and_eq_true, decide_eq_true_eq] at h
    have : a < k := by omega
    simp [lookupCell, this]

/-- The canonical form from `lo` up is one from any lower bound up. -/
theorem cellsFrom_lower {m : List Cell} {lo lo' : Nat} (h : cellsFrom lo m = true) (hl : lo' ≤ lo) :
    cellsFrom lo' m = true := by
  cases m with
  | nil => rfl
  | cons c rest =>
    obtain ⟨k, w⟩ := c
    simp only [cellsFrom, Bool.and_eq_true, decide_eq_true_eq] at h ⊢
    exact ⟨⟨⟨by omega, h.1.1.2⟩, h.1.2⟩, h.2⟩

theorem lookupCell_consCell {rest : List Cell} {a b : Nat} {v : Word} (h : cellsFrom (a + 1) rest = true) :
    lookupCell (consCell a v rest) b =
      if b < a then memoryReset else if b = a then v else lookupCell rest b := by
  unfold consCell
  split
  · rename_i hv
    by_cases hb : b < a + 1
    · rw [lookupCell_below h hb]
      by_cases hba : b < a
      · simp [hba]
      · have : b = a := by omega
        simp [this, hv]
    · have h1 : ¬ b < a := by omega
      have h2 : b ≠ a := by omega
      simp [h1, h2]
  · simp [lookupCell]

theorem cellsFrom_consCell {rest : List Cell} {lo a : Nat} {v : Word} (h : cellsFrom (a + 1) rest = true)
    (hlo : lo ≤ a) (ha : a < 65536) : cellsFrom lo (consCell a v rest) = true := by
  unfold consCell
  split
  · exact cellsFrom_lower h (by omega)
  · simp [cellsFrom, *]

/-- A store keeps the canonical form. -/
theorem cellsFrom_storeCell {m : List Cell} {lo a : Nat} {v : Word} (h : cellsFrom lo m = true) (hlo : lo ≤ a)
    (ha : a < 65536) : cellsFrom lo (storeCell m a v) = true := by
  induction m generalizing lo with
  | nil => exact cellsFrom_consCell rfl hlo ha
  | cons c rest ih =>
    obtain ⟨k, w⟩ := c
    have h' := h
    simp only [cellsFrom, Bool.and_eq_true, decide_eq_true_eq] at h'
    unfold storeCell
    split
    · refine cellsFrom_consCell ?_ hlo ha
      simp only [cellsFrom, Bool.and_eq_true, decide_eq_true_eq]
      exact ⟨⟨⟨by omega, h'.1.1.2⟩, h'.1.2⟩, h'.2⟩
    · split
      · rename_i e
        exact cellsFrom_consCell (e ▸ h'.2) hlo ha
      · simp only [cellsFrom, Bool.and_eq_true, decide_eq_true_eq]
        exact ⟨h'.1, ih h'.2 (by omega)⟩

/-- What a store does to the word at every key. -/
theorem lookupCell_storeCell {m : List Cell} {lo a b : Nat} {v : Word} (h : cellsFrom lo m = true) (hlo : lo ≤ a) :
    lookupCell (storeCell m a v) b = if b = a then v else lookupCell m b := by
  induction m generalizing lo with
  | nil =>
    rw [storeCell, lookupCell_consCell rfl]
    by_cases h1 : b < a
    · have : b ≠ a := by omega
      simp [h1, this, lookupCell]
    · simp [h1]
  | cons c rest ih =>
    obtain ⟨k, w⟩ := c
    have h' := h
    simp only [cellsFrom, Bool.and_eq_true, decide_eq_true_eq] at h'
    unfold storeCell
    split
    · rename_i hk
      rw [lookupCell_consCell (by
        simp only [cellsFrom, Bool.and_eq_true, decide_eq_true_eq]
        exact ⟨⟨⟨by omega, h'.1.1.2⟩, h'.1.2⟩, h'.2⟩)]
      by_cases h1 : b < a
      · have h2 : b ≠ a := by omega
        have h3 : b < k := by omega
        simp [h1, h2, lookupCell, h3]
      · simp [h1]
    · split
      · rename_i e
        subst e
        rw [lookupCell_consCell h'.2]
        by_cases h1 : b < a
        · have h2 : b ≠ a := by omega
          simp [h1, h2, lookupCell]
        · by_cases h2 : b = a
          · simp [h2]
          · simp [h1, h2, lookupCell]
      · rename_i h1 h2
        by_cases h3 : b < k
        · have h4 : b ≠ a := by omega
          simp [lookupCell, h3, h4]
        · by_cases h4 : b = k
          · have h5 : k ≠ a := fun e => h2 e.symm
            subst h4
            simp [lookupCell, h5]
          · simp [lookupCell, h3, h4, ih h'.2 (by omega)]

/-- A write keeps the canonical form of memory. -/
@[simp] theorem write_wf {m : Memory} {a v : Word} (h : m.wf = true) : (m.write a v).wf = true :=
  cellsFrom_storeCell h (Nat.zero_le _) a.isLt

/-- What a write does to the word at every address. -/
theorem read_write {m : Memory} (h : m.wf = true) (a b v : Word) :
    (m.write a v).read b = if b = a then v else m.read b := by
  rw [Memory.write, Memory.read, lookupCell_storeCell h (Nat.zero_le _)]
  simp [Memory.read, BitVec.toNat_inj]

/-- The written word reads back. -/
theorem read_write_self {m : Memory} (h : m.wf = true) (a v : Word) : (m.write a v).read a = v := by
  simp [read_write h]

/-- A write leaves every other address alone. -/
theorem read_write_other {m : Memory} (h : m.wf = true) {a b : Word} (v : Word) (hb : b ≠ a) :
    (m.write a v).read b = m.read b := by
  simp [read_write h, hb]

/-- Reset memory is in canonical form. -/
theorem resetAt_mem_wf (p : Word) : (State.resetAt p).mem.wf = true := rfl

/-- Every word of reset memory is 0x0000 (R33). -/
theorem resetAt_mem_read (p a : Word) : (State.resetAt p).mem.read a = 0 := rfl

end Sys2Proof.Machine
end

