-- ==== Sys2Proof/Laws/Ops.lean ====
section
/-! SUPPORT. One spec lemma per shared operation: everything the operation can do, said once. -/

namespace Sys2Proof.Machine

/-! ### Ports -/

@[simp] theorem afterPoll_output (p : Ports) : p.afterPoll.output = p.output := by
  unfold Ports.afterPoll; split <;> rfl
@[simp] theorem afterPoll_report (p : Ports) : p.afterPoll.report = p.report := by
  unfold Ports.afterPoll; split <;> rfl
@[simp] theorem afterPoll_reads (p : Ports) : p.afterPoll.reads = p.reads := by
  unfold Ports.afterPoll; split <;> rfl
@[simp] theorem afterPoll_outs (p : Ports) : p.afterPoll.outs = p.outs := by
  unfold Ports.afterPoll; split <;> rfl
@[simp] theorem afterPoll_draws (p : Ports) : p.afterPoll.draws = p.draws + 1 := by
  unfold Ports.afterPoll; split <;> rfl

@[simp] theorem afterRead_output (p : Ports) : p.afterRead.output = p.output := by
  unfold Ports.afterRead; split <;> rfl
@[simp] theorem afterRead_report (p : Ports) : p.afterRead.report = p.report := by
  unfold Ports.afterRead; split <;> rfl
@[simp] theorem afterRead_polls (p : Ports) : p.afterRead.polls = p.polls := by
  unfold Ports.afterRead; split <;> rfl
@[simp] theorem afterRead_outs (p : Ports) : p.afterRead.outs = p.outs := by
  unfold Ports.afterRead; split <;> rfl
@[simp] theorem afterRead_draws (p : Ports) : p.afterRead.draws = p.draws + 1 := by
  unfold Ports.afterRead; split <;> rfl

@[simp] theorem afterOut_output (p : Ports) : p.afterOut.output = p.output := rfl
@[simp] theorem afterOut_report (p : Ports) : p.afterOut.report = p.report := rfl
@[simp] theorem afterOut_input (p : Ports) : p.afterOut.input = p.input := rfl
@[simp] theorem append_output (p : Ports) (b : Byte) : (p.append b).output = p.output ++ [b] := rfl
@[simp] theorem append_report (p : Ports) (b : Byte) : (p.append b).report = p.report := rfl
@[simp] theorem append_outs (p : Ports) (b : Byte) : (p.append b).outs = p.outs := rfl

/-- The first of the coming output choices is the next one. -/
theorem outChoiceAt_zero (p : Ports) : p.outChoiceAt 0 = p.outChoice := by
  simp [Ports.outChoiceAt, Ports.outChoice, List.head?_eq_getElem?]

/-- The coming choices after one output byte are the later ones. -/
theorem outChoiceAt_afterOut (p : Ports) (b : Byte) (i : Nat) :
    (p.afterOut.append b).outChoiceAt i = p.outChoiceAt (i + 1) := by
  simp [Ports.outChoiceAt, Ports.afterOut, Ports.append, Nat.add_assoc, Nat.add_comm 1 i]

/-! ### Results -/

@[simp] theorem andThen_ok {α : Type} (a : α) (s : State) (k : α → State → State) :
    (Result.ok a s).andThen k = k a s := rfl
@[simp] theorem andThen_raised {α : Type} (s : State) (k : α → State → State) :
    (Result.raised s : Result α).andThen k = s := rfl
@[simp] theorem bind_ok {α β : Type} (a : α) (s : State) (k : α → State → Result β) :
    (Result.ok a s).bind k = k a s := rfl
@[simp] theorem bind_raised {α β : Type} (s : State) (k : α → State → Result β) :
    (Result.raised s : Result α).bind k = .raised s := rfl

/-! ### Memory reads (R52) -/

/-- What a read through Machine State keeps: all of the core but KBSR, KBDR, and nothing of the host's output. -/
structure ReadKeeps (s s' : State) : Prop where
  regs : s'.regs = s.regs
  pc : s'.pc = s.pc
  cond : s'.cond = s.cond
  runState : s'.runState = s.runState
  service : s'.service = s.service
  output : s'.ports.output = s.ports.output
  report : s'.ports.report = s.ports.report
  outs : s'.ports.outs = s.ports.outs
  wf : s.mem.wf = true → s'.mem.wf = true
  mem : s.mem.wf = true → ∀ b, b ≠ kbsrAddr → b ≠ kbdrAddr → s'.mem.read b = s.mem.read b

theorem ReadKeeps.refl (s : State) : ReadKeeps s s :=
  ⟨rfl, rfl, rfl, rfl, rfl, rfl, rfl, rfl, id, fun _ _ _ _ => rfl⟩

theorem ReadKeeps.trans {s t u : State} (h : ReadKeeps s t) (k : ReadKeeps t u) : ReadKeeps s u :=
  ⟨k.regs.trans h.regs, k.pc.trans h.pc, k.cond.trans h.cond, k.runState.trans h.runState,
    k.service.trans h.service, k.output.trans h.output, k.report.trans h.report, k.outs.trans h.outs,
    fun w => k.wf (h.wf w), fun w b h1 h2 => (k.mem (h.wf w) b h1 h2).trans (h.mem w b h1 h2)⟩

theorem ReadKeeps.reg {s s' : State} (h : ReadKeeps s s') (r : Reg) : s'.reg r = s.reg r := by
  simp [State.reg, h.regs]

/-- A read of any address but KBSR_ADDR returns the stored word and changes nothing (R52). -/
theorem memRead_plain {a : Word} (h : a ≠ kbsrAddr) (s : State) : memRead a s = .ok (s.mem.read a) s := by
  simp [memRead, h]

/-- Everything a poll can do: it goes on with what `ReadKeeps` says, or it raises `InputError` (R52). -/
theorem pollKeyboard_cases (s : State) :
    (∃ s', pollKeyboard s = .ok () s' ∧ ReadKeeps s s') ∨
      (s.ports.pollAnswer = .error ∧
        pollKeyboard s = .raised ((s.setPorts s.ports.afterPoll).raise .inputError)) := by
  unfold pollKeyboard
  cases hp : s.ports.pollAnswer with
  | avail b =>
    refine .inl ⟨_, rfl, rfl, rfl, rfl, rfl, rfl, by simp, by simp, by simp, fun w => by simp [w],
      fun w c h1 h2 => ?_⟩
    simp [read_write, w, h1, h2]
  | notAvail =>
    refine .inl ⟨_, rfl, rfl, rfl, rfl, rfl, rfl, by simp, by simp, by simp, fun w => by simp [w],
      fun w c h1 _ => ?_⟩
    simp [read_write, w, h1]
  | error => exact .inr ⟨rfl, rfl⟩

/-- Everything `MemRead` can do (R52): it answers the word stored after the poll, if there was one, or the poll raised. -/
theorem memRead_cases (a : Word) (s : State) :
    (∃ s', memRead a s = .ok (s'.mem.read a) s' ∧ ReadKeeps s s') ∨
      (a = kbsrAddr ∧ memRead a s = .raised ((s.setPorts s.ports.afterPoll).raise .inputError)) := by
  by_cases h : a = kbsrAddr
  · rcases pollKeyboard_cases s with ⟨s', hs, hk⟩ | ⟨-, hs⟩
    · exact .inl ⟨s', by simp [memRead, h, hs], hk⟩
    · exact .inr ⟨h, by simp [memRead, h, hs]⟩
  · exact .inl ⟨s, memRead_plain h s, .refl s⟩

/-! ### Output (R213) -/

theorem outByte_accept {s : State} (h : s.ports.outChoice = .accept) (b : Byte) :
    outByte b s = .ok () (s.setPorts (s.ports.afterOut.append b)) := by
  simp [outByte, h]

theorem outByte_error {s : State} (h : s.ports.outChoice = .error) (b : Byte) :
    outByte b s = .raised ((s.setPorts s.ports.afterOut).raise .outputError) := by
  simp [outByte, h]

/-- What output keeps: all of the core. -/
structure OutKeeps (s s' : State) : Prop where
  regs : s'.regs = s.regs
  pc : s'.pc = s.pc
  cond : s'.cond = s.cond
  mem : s'.mem = s.mem
  service : s'.service = s.service
  input : s'.ports.input = s.ports.input
  taken : s'.ports.inputTaken = s.ports.inputTaken
  extends_ : ∃ bs, s'.ports.output = s.ports.output ++ bs

theorem OutKeeps.refl (s : State) : OutKeeps s s := ⟨rfl, rfl, rfl, rfl, rfl, rfl, rfl, [], by simp⟩

theorem OutKeeps.trans {s t u : State} (h : OutKeeps s t) (k : OutKeeps t u) : OutKeeps s u := by
  obtain ⟨bs, hb⟩ := h.extends_
  obtain ⟨cs, hc⟩ := k.extends_
  exact ⟨k.regs.trans h.regs, k.pc.trans h.pc, k.cond.trans h.cond, k.mem.trans h.mem,
    k.service.trans h.service, k.input.trans h.input, k.taken.trans h.taken, bs ++ cs, by simp [hb, hc]⟩

theorem OutKeeps.reg {s s' : State} (h : OutKeeps s s') (r : Reg) : s'.reg r = s.reg r := by
  simp [State.reg, h.regs]

/-- Everything `OutByte` can do: append the byte and stay in the run state, or raise `OutputError` (R213). -/
theorem outByte_cases (b : Byte) (s : State) :
    (∃ s', outByte b s = .ok () s' ∧ OutKeeps s s' ∧ s'.runState = s.runState ∧
        s'.ports.report = s.ports.report ∧ s'.ports.output = s.ports.output ++ [b]) ∨
      (∃ s', outByte b s = .raised s' ∧ OutKeeps s s' ∧ s'.runState = .faulted .outputError ∧
        s'.ports.report = Config.faultMessage .outputError ∧ s'.ports.output = s.ports.output) := by
  cases h : s.ports.outChoice with
  | accept =>
    exact .inl ⟨_, outByte_accept h b, ⟨rfl, rfl, rfl, rfl, rfl, rfl, rfl, [b], by simp⟩, rfl, by simp, by simp⟩
  | error =>
    exact .inr ⟨_, outByte_error h b, ⟨rfl, rfl, rfl, rfl, rfl, rfl, rfl, [], by simp⟩, rfl, by simp, by simp⟩

/-- Everything `OutBytes` can do: write all the bytes and stay in the run state, or raise `OutputError` after some. -/
theorem outBytes_cases (bs : List Byte) (s : State) :
    (∃ s', outBytes bs s = .ok () s' ∧ OutKeeps s s' ∧ s'.runState = s.runState ∧
        s'.ports.report = s.ports.report ∧ s'.ports.output = s.ports.output ++ bs) ∨
      (∃ s', outBytes bs s = .raised s' ∧ OutKeeps s s' ∧ s'.runState = .faulted .outputError ∧
        s'.ports.report = Config.faultMessage .outputError) := by
  induction bs generalizing s with
  | nil => exact .inl ⟨s, rfl, .refl s, rfl, rfl, by simp⟩
  | cons b bs ih =>
    rcases outByte_cases b s with ⟨s1, e, k, hr, hp, ho⟩ | ⟨s1, e, k, hr, hp, -⟩
    · rcases ih s1 with ⟨s2, e2, k2, hr2, hp2, ho2⟩ | ⟨s2, e2, k2, hr2, hp2⟩
      · exact .inl ⟨s2, by simp [outBytes, e, e2], k.trans k2, hr2.trans hr, hp2.trans hp, by simp [ho2, ho]⟩
      · exact .inr ⟨s2, by simp [outBytes, e, e2], k.trans k2, hr2, hp2⟩
    · exact .inr ⟨s1, by simp [outBytes, e], k, hr, hp⟩

/-! ### Fetch (R71) -/

/-- Everything a fetch can do: it answers the word at pc with pc one on, or its poll raised and pc stays. -/
theorem fetch_cases (s : State) :
    (∃ s', fetch s = .ok (s'.mem.read s.pc) (s'.setPc (s.pc + 1)) ∧ ReadKeeps s s') ∨
      (s.pc = kbsrAddr ∧ fetch s = .raised ((s.setPorts s.ports.afterPoll).raise .inputError)) := by
  rcases memRead_cases s.pc s with ⟨s', hs, hk⟩ | ⟨h, hs⟩
  · exact .inl ⟨s', by simp [fetch, hs, hk.pc], hk⟩
  · exact .inr ⟨h, by simp [fetch, hs]⟩

end Sys2Proof.Machine
end

