-- ==== Sys2Proof/Laws/Flags.lean ====
section
/-! SUPPORT. The laws of the condition codes: setcc by the signed reading, and when BR's mask meets COND. -/

namespace Sys2Proof.Machine

/-- A word is zero exactly when its signed reading is, and negative exactly when bit 15 is set. -/
theorem toInt_zero_iff (v : Word) : v.toInt = 0 ↔ v = 0 := by
  rw [← BitVec.toInt_zero (w := 16)]
  exact ⟨fun h => BitVec.eq_of_toInt_eq h, fun h => by rw [h]; rfl⟩

theorem toInt_neg_iff (v : Word) : v.toInt < 0 ↔ v.msb = true := by
  rw [BitVec.msb_eq_toInt]
  simp

/-- The class of R27 is the class of the signed reading. -/
theorem condOf_eq_signClass (v : Word) : condOf v = signClass v := by
  simp only [condOf, signClass, toInt_zero_iff, toInt_neg_iff]

/-- BR's test, flag by flag: n against COND's bit 2, z against bit 1, p against bit 0 (R150). -/
theorem branchMask_meets (n z p : Bool) (c : Word) : branchMask n z p &&& c ≠ 0 ↔
    (n = true ∧ c.getLsbD 2 = true) ∨ (z = true ∧ c.getLsbD 1 = true) ∨ (p = true ∧ c.getLsbD 0 = true) := by
  have h : branchMask n z p &&& c =
      place 2 (BitVec.ofBool (n && c.getLsbD 2)) ||| place 1 (BitVec.ofBool (z && c.getLsbD 1)) |||
        place 0 (BitVec.ofBool (p && c.getLsbD 0)) := by
    ext i hi
    have : i = 0 ∨ i = 1 ∨ i = 2 ∨ 3 ≤ i := by omega
    rcases this with h | h | h | h
    · subst h; simp [branchMask, getElem_place]
    · subst h; simp [branchMask, getElem_place]
    · subst h; simp [branchMask, getElem_place]
    · simp [branchMask, getElem_place, show 1 ≤ i - 2 by omega, show 1 ≤ i - 1 by omega, show 1 ≤ i by omega]
  rw [h]
  have hd : ∀ a b d : Bool, (place 2 (BitVec.ofBool a) ||| place 1 (BitVec.ofBool b) ||| place 0 (BitVec.ofBool d) ≠ 0) ↔
      (a = true ∨ b = true ∨ d = true) := by decide
  rw [hd]
  simp

@[simp] theorem setDest_pc (s : State) (r : Reg) (v : Word) : (s.setDest r v).pc = s.pc := rfl
@[simp] theorem setDest_cond (s : State) (r : Reg) (v : Word) : (s.setDest r v).cond = condOf v := rfl
@[simp] theorem setDest_mem (s : State) (r : Reg) (v : Word) : (s.setDest r v).mem = s.mem := rfl
@[simp] theorem setDest_runState (s : State) (r : Reg) (v : Word) : (s.setDest r v).runState = s.runState := rfl
@[simp] theorem setDest_service (s : State) (r : Reg) (v : Word) : (s.setDest r v).service = s.service := rfl
@[simp] theorem setDest_ports (s : State) (r : Reg) (v : Word) : (s.setDest r v).ports = s.ports := rfl
@[simp] theorem setDest_reg_self (s : State) (r : Reg) (v : Word) : (s.setDest r v).reg r = v := setReg_reg_self s r v
@[simp] theorem setDest_reg_other (s : State) (r r' : Reg) (v : Word) (h : r' ≠ r) :
    (s.setDest r v).reg r' = s.reg r' := setReg_reg_other s r r' v h

@[simp] theorem setInput_pc (s : State) (v : Word) : (s.setInput v).pc = s.pc := by
  unfold State.setInput; split <;> rfl
@[simp] theorem setInput_mem (s : State) (v : Word) : (s.setInput v).mem = s.mem := by
  unfold State.setInput; split <;> rfl
@[simp] theorem setInput_runState (s : State) (v : Word) : (s.setInput v).runState = s.runState := by
  unfold State.setInput; split <;> rfl
@[simp] theorem setInput_service (s : State) (v : Word) : (s.setInput v).service = s.service := by
  unfold State.setInput; split <;> rfl
@[simp] theorem setInput_ports (s : State) (v : Word) : (s.setInput v).ports = s.ports := by
  unfold State.setInput; split <;> rfl
@[simp] theorem setInput_reg_zero (s : State) (v : Word) : (s.setInput v).reg 0 = v := by
  unfold State.setInput; split
  · exact setDest_reg_self s 0 v
  · exact setReg_reg_self s 0 v
@[simp] theorem setInput_reg_other (s : State) (r : Reg) (v : Word) (h : r ≠ 0) : (s.setInput v).reg r = s.reg r := by
  unfold State.setInput; split
  · exact setDest_reg_other s 0 r v h
  · exact setReg_reg_other s 0 r v h

/-- COND after GETC or IN delivers a word: only under TRAP_IN_SETS_COND does it change (R28, D6). -/
theorem setInput_cond (s : State) (v : Word) :
    (s.setInput v).cond = if Config.trapInSetsCond then signClass v else s.cond := by
  unfold State.setInput; split
  · simp [condOf_eq_signClass]
  · rfl

/-- The write of a destination and its class, with its whole frame (R28). -/
theorem setDest_writesDest (s : State) (r : Reg) (v : Word) : WritesDest r v s (s.setDest r v) :=
  ⟨by simp, condOf_eq_signClass v, fun _ h => setDest_reg_other s _ _ v (by simpa using h), rfl, fun _ _ => rfl, rfl,
    rfl, rfl⟩

end Sys2Proof.Machine
end

