-- ==== Sys2Proof/Laws/Loader.lean ====
section
/-! SUPPORT. One spec lemma per function of the load port: everything it can do, said once (R230, R234). -/

namespace Sys2Proof.Machine

/-- Everything `loadWords` does: the count, the canonical form, the words stored, and the words left alone. -/
theorem loadWords_spec (ws : List Word) (a : Nat) (m : Memory) (h : m.wf = true) :
    (loadWords a ws m).2 = min ws.length (65536 - a) ∧ (loadWords a ws m).1.wf = true ∧
    (∀ k w, a + k < 65536 → ws[k]? = some w → (loadWords a ws m).1.read (BitVec.ofNat 16 (a + k)) = w) ∧
    (∀ b : Word, (b.toNat < a ∨ a + ws.length ≤ b.toNat) → (loadWords a ws m).1.read b = m.read b) := by
  induction ws generalizing a m with
  | nil => exact ⟨by simp [loadWords], h, by simp, fun _ _ => rfl⟩
  | cons w ws ih =>
    unfold loadWords
    split
    · rename_i ha
      obtain ⟨count, wf, stored, kept⟩ := ih (a + 1) (m.write (BitVec.ofNat 16 a) w) (write_wf h)
      refine ⟨by simp [count]; omega, wf, fun k v hk hv => ?_, fun b hb => ?_⟩
      · cases k with
        | zero =>
          obtain rfl : w = v := by simpa using hv
          exact (kept _ (by simp; omega)).trans (by simp [read_write h])
        | succ k =>
          rw [show a + (k + 1) = a + 1 + k by omega]
          exact stored k v (by omega) (by simpa using hv)
      · refine (kept b (by simp at hb; omega)).trans (read_write_other h w ?_)
        rintro rfl
        simp at hb
        omega
    · exact ⟨by simp; omega, h, fun k _ hk => by omega, fun _ _ => rfl⟩

/-- A load changes memory only, and keeps its canonical form (R230). -/
theorem loadImage_keeps {image : List Byte} {s : State} {r : State × Nat} (h : loadImage image s = .ok r) :
    ∃ m : Memory, r.1 = { s with mem := m } ∧ (s.mem.wf = true → m.wf = true) := by
  unfold loadImage at h
  split at h
  · cases h
  · rename_i origin contents _
    dsimp only at h
    split at h
    · cases h
    · cases h
      exact ⟨_, rfl, fun w => (loadWords_spec contents origin.toNat s.mem w).2.1⟩

/-- The images of a list load one after the other. -/
theorem loadImages_cons (image : List Byte) (rest : List (List Byte)) (s : State) :
    loadImages (image :: rest) s =
      match loadImage image s with
      | .error e => .error e
      | .ok r => loadImages rest r.1 := rfl

/-- Loading any images changes memory only, and keeps its canonical form. -/
theorem loadImages_keeps {images : List (List Byte)} {s u : State} (h : loadImages images s = .ok u) :
    ∃ m : Memory, u = { s with mem := m } ∧ (s.mem.wf = true → m.wf = true) := by
  induction images generalizing s with
  | nil => cases h; exact ⟨_, rfl, id⟩
  | cons image rest ih =>
    rw [loadImages_cons] at h
    cases e : loadImage image s with
    | error e' => rw [e] at h; cases h
    | ok r =>
      rw [e] at h
      obtain ⟨m, hr, hm⟩ := loadImage_keeps e
      obtain ⟨m', hu, hm'⟩ := ih h
      rw [hr] at hu hm'
      exact ⟨m', hu, fun w => hm' (hm w)⟩

end Sys2Proof.Machine
end

