-- ==== Sys2Proof/Laws/PerInstr.lean ====
section
/-! SUPPORT. Facts about every instruction as syntax, one lemma per constructor. Family OpcodeNibble: bits [15:12] of an
encoded instruction hold the number that the opcode map of R81 gives it. -/

namespace Sys2Proof

/-- The opcode map (R81): "opcode values 0-15 map to: BR, ADD, LD, ST, JSR, AND, LDR, STR, RTI, NOT, LDI, STI, JMP, RES,
LEA, TRAP". -/
def opcodeNumber : Instr → Nat
  | .br _ _ _ _ => 0
  | .addReg _ _ _ | .addImm _ _ _ => 1
  | .ld _ _ => 2
  | .st _ _ => 3
  | .jsr _ | .jsrr _ => 4
  | .andReg _ _ _ | .andImm _ _ _ => 5
  | .ldr _ _ _ => 6
  | .str _ _ _ => 7
  | .rti => 8
  | .notReg _ _ => 9
  | .ldi _ _ => 10
  | .sti _ _ => 11
  | .jmp _ | .ret => 12
  | .res => 13
  | .lea _ _ => 14
  | .trapGetc | .trapOut | .trapPuts | .trapIn | .trapPutsp | .trapHalt | .trapInvalid _ => 15

namespace Laws.OpcodeNibble

/-- Bits [15:12] of the encoded instruction. -/
def Statement (i : Instr) : Prop := opcodeField (encode i) = opcodeNumber i

theorem br (n z p : Bool) (off : BitVec 9) : Statement (.br n z p off) := by
  simp [Statement, encode, opcodeNumber, opcodeField_or_place, opcodeField_placeOpcode, layoutN, layoutZ, layoutP]
theorem addReg (dr sr1 sr2 : Reg) : Statement (.addReg dr sr1 sr2) := by
  simp [Statement, encode, opcodeNumber, opcodeField_or_placeReg, opcodeField_placeOpcode, layoutDr, layoutSr1,
    layoutSr2]
theorem addImm (dr sr1 : Reg) (imm5 : BitVec 5) : Statement (.addImm dr sr1 imm5) := by
  simp [Statement, encode, opcodeNumber, opcodeField_or_place, opcodeField_or_placeReg, opcodeField_placeOpcode,
    layoutDr, layoutSr1, layoutImmFlag]
theorem ld (dr : Reg) (off : BitVec 9) : Statement (.ld dr off) := by
  simp [Statement, encode, opcodeNumber, opcodeField_or_place, opcodeField_or_placeReg, opcodeField_placeOpcode,
    layoutDr]
theorem st (sr : Reg) (off : BitVec 9) : Statement (.st sr off) := by
  simp [Statement, encode, opcodeNumber, opcodeField_or_place, opcodeField_or_placeReg, opcodeField_placeOpcode,
    layoutDr]
theorem jsr (off : BitVec 11) : Statement (.jsr off) := by
  simp [Statement, encode, opcodeNumber, opcodeField_or_place, opcodeField_placeOpcode, layoutLongFlag]
theorem jsrr (base : Reg) : Statement (.jsrr base) := by
  simp [Statement, encode, opcodeNumber, opcodeField_or_placeReg, opcodeField_placeOpcode, layoutSr1]
theorem andReg (dr sr1 sr2 : Reg) : Statement (.andReg dr sr1 sr2) := by
  simp [Statement, encode, opcodeNumber, opcodeField_or_placeReg, opcodeField_placeOpcode, layoutDr, layoutSr1,
    layoutSr2]
theorem andImm (dr sr1 : Reg) (imm5 : BitVec 5) : Statement (.andImm dr sr1 imm5) := by
  simp [Statement, encode, opcodeNumber, opcodeField_or_place, opcodeField_or_placeReg, opcodeField_placeOpcode,
    layoutDr, layoutSr1, layoutImmFlag]
theorem ldr (dr base : Reg) (off : BitVec 6) : Statement (.ldr dr base off) := by
  simp [Statement, encode, opcodeNumber, opcodeField_or_place, opcodeField_or_placeReg, opcodeField_placeOpcode,
    layoutDr, layoutSr1]
theorem str (sr base : Reg) (off : BitVec 6) : Statement (.str sr base off) := by
  simp [Statement, encode, opcodeNumber, opcodeField_or_place, opcodeField_or_placeReg, opcodeField_placeOpcode,
    layoutDr, layoutSr1]
theorem rti : Statement .rti := by
  simp [Statement, encode, opcodeNumber, opcodeField_placeOpcode]
theorem notReg (dr sr : Reg) : Statement (.notReg dr sr) := by
  simp [Statement, encode, opcodeNumber, opcodeField_or_place, opcodeField_or_placeReg, opcodeField_placeOpcode,
    layoutDr, layoutSr1]
theorem ldi (dr : Reg) (off : BitVec 9) : Statement (.ldi dr off) := by
  simp [Statement, encode, opcodeNumber, opcodeField_or_place, opcodeField_or_placeReg, opcodeField_placeOpcode,
    layoutDr]
theorem sti (sr : Reg) (off : BitVec 9) : Statement (.sti sr off) := by
  simp [Statement, encode, opcodeNumber, opcodeField_or_place, opcodeField_or_placeReg, opcodeField_placeOpcode,
    layoutDr]
theorem jmp (base : Reg) : Statement (.jmp base) := by
  simp [Statement, encode, opcodeNumber, opcodeField_or_placeReg, opcodeField_placeOpcode, layoutSr1]
theorem ret : Statement .ret := by
  simp [Statement, encode, opcodeNumber, opcodeField_or_placeReg, opcodeField_placeOpcode, layoutSr1]
theorem res : Statement .res := by
  simp [Statement, encode, opcodeNumber, opcodeField_placeOpcode]
theorem lea (dr : Reg) (off : BitVec 9) : Statement (.lea dr off) := by
  simp [Statement, encode, opcodeNumber, opcodeField_or_place, opcodeField_or_placeReg, opcodeField_placeOpcode,
    layoutDr]
theorem trapGetc : Statement .trapGetc := by
  simp [Statement, encode, opcodeNumber, opcodeField_or_place, opcodeField_placeOpcode]
theorem trapOut : Statement .trapOut := by
  simp [Statement, encode, opcodeNumber, opcodeField_or_place, opcodeField_placeOpcode]
theorem trapPuts : Statement .trapPuts := by
  simp [Statement, encode, opcodeNumber, opcodeField_or_place, opcodeField_placeOpcode]
theorem trapIn : Statement .trapIn := by
  simp [Statement, encode, opcodeNumber, opcodeField_or_place, opcodeField_placeOpcode]
theorem trapPutsp : Statement .trapPutsp := by
  simp [Statement, encode, opcodeNumber, opcodeField_or_place, opcodeField_placeOpcode]
theorem trapHalt : Statement .trapHalt := by
  simp [Statement, encode, opcodeNumber, opcodeField_or_place, opcodeField_placeOpcode]
theorem trapInvalid (v : Byte) : Statement (.trapInvalid v) := by
  simp [Statement, encode, opcodeNumber, opcodeField_or_place, opcodeField_placeOpcode]

end Laws.OpcodeNibble

end Sys2Proof
end

