-- ==== Sys2Proof/Laws/Services.lean ====
section
/-! SUPPORT. One spec lemma per shared part of the loads, stores and trap services: everything each can do, said once. -/

namespace Sys2Proof.Machine

/-! ### The input stream under polls and reads (R35) -/

theorem afterPoll_avail {p : Ports} {b : Byte} (h : p.pollAnswer = .avail b) :
    p.afterPoll.input = p.input.tail ∧ p.afterPoll.inputEnds = p.inputEnds ∧
      p.afterPoll.inputTaken = p.inputTaken + 1 := by
  simp [Ports.afterPoll, h, Ports.takeByte]

theorem afterPoll_none {p : Ports} (h : ∀ b, p.pollAnswer ≠ .avail b) :
    p.afterPoll.input = p.input ∧ p.afterPoll.inputEnds = p.inputEnds ∧ p.afterPoll.inputTaken = p.inputTaken := by
  unfold Ports.afterPoll
  cases hp : p.pollAnswer with
  | avail b => exact absurd hp (h b)
  | notAvail => exact ⟨rfl, rfl, rfl⟩
  | error => exact ⟨rfl, rfl, rfl⟩

theorem afterRead_byte {p : Ports} {b : Byte} (h : p.readAnswer = .byte b) :
    p.afterRead.input = p.input.tail ∧ p.afterRead.inputEnds = p.inputEnds ∧
      p.afterRead.inputTaken = p.inputTaken + 1 := by
  simp [Ports.afterRead, h, Ports.takeByte]

theorem afterRead_none {p : Ports} (h : ∀ b, p.readAnswer ≠ .byte b) :
    p.afterRead.input = p.input ∧ p.afterRead.inputEnds = p.inputEnds ∧ p.afterRead.inputTaken = p.inputTaken := by
  unfold Ports.afterRead
  cases hp : p.readAnswer with
  | byte b => exact absurd hp (h b)
  | eof => exact ⟨rfl, rfl, rfl⟩
  | error => exact ⟨rfl, rfl, rfl⟩
  | wait => exact ⟨rfl, rfl, rfl⟩

/-! ### Loads and pointer reads -/

/-- Everything a load's last part can do: write the destination after a read, or end in the read's fault. -/
theorem loadFrom_cases (dr : Reg) (ea : Word) (s : State) :
    (∃ w s1, memRead ea s = .ok w s1 ∧ ReadKeeps s s1 ∧ loadFrom dr ea s = s1.setDest dr w) ∨
      (ea = kbsrAddr ∧ loadFrom dr ea s = (s.setPorts s.ports.afterPoll).raise .inputError) := by
  unfold loadFrom
  rcases memRead_cases ea s with ⟨s', e, k⟩ | ⟨h, e⟩
  · exact .inl ⟨_, s', e, k, by rw [e, andThen_ok]⟩
  · exact .inr ⟨h, by rw [e, andThen_raised]⟩

/-! ### Strings -/

/-- PUTS's output for a word, as a list of bytes. -/
theorem putWord_eq (w : Word) (s : State) : putWord w s = outBytes (lowByte w) s := by
  show outByte (low8 w) s = outBytes [low8 w] s
  unfold outBytes
  rcases outByte_cases (low8 w) s with ⟨s', e, -⟩ | ⟨s', e, -⟩ <;> simp [e, outBytes]

/-- PUTSP's output for a word, as a list of bytes. -/
theorem putPackedWord_eq (w : Word) (s : State) : putPackedWord w s = outBytes (packedBytes w) s := by
  have hl : w.extractLsb 7 0 = low8 w := rfl
  have hh : w.extractLsb 15 8 = high8 w := rfl
  unfold putPackedWord packedBytes
  rw [hl, hh]
  by_cases h : high8 w = 0
  · simp only [if_pos h]
    rcases outByte_cases (low8 w) s with ⟨s', e, -⟩ | ⟨s', e, -⟩ <;> simp [e, outBytes]
  · simp only [if_neg h]
    rcases outByte_cases (low8 w) s with ⟨s', e, -⟩ | ⟨s', e, -⟩
    · rcases outByte_cases (high8 w) s' with ⟨t, e2, -⟩ | ⟨t, e2, -⟩ <;> simp [e, e2, outBytes]
    · simp [e, outBytes]

/-- What a string service keeps, whether it ends, faults or is left unfinished: registers, pc, COND, memory outside the
device words; and it only appends to the output. -/
structure ServiceKeeps (s t : State) : Prop where
  regs : t.regs = s.regs
  pc : t.pc = s.pc
  cond : t.cond = s.cond
  wf : s.mem.wf = true → t.mem.wf = true
  mem : s.mem.wf = true → ∀ b, b ≠ kbsrAddr → b ≠ kbdrAddr → t.mem.read b = s.mem.read b
  output : ∃ bs, t.ports.output = s.ports.output ++ bs

theorem ServiceKeeps.reg {s t : State} (h : ServiceKeeps s t) (r : Reg) : t.reg r = s.reg r := by
  simp [State.reg, h.regs]

theorem ServiceKeeps.trans {s t u : State} (h : ServiceKeeps s t) (k : ServiceKeeps t u) : ServiceKeeps s u := by
  obtain ⟨bs, hb⟩ := h.output
  obtain ⟨cs, hc⟩ := k.output
  exact ⟨k.regs.trans h.regs, k.pc.trans h.pc, k.cond.trans h.cond, fun w => k.wf (h.wf w),
    fun w b h1 h2 => (k.mem (h.wf w) b h1 h2).trans (h.mem w b h1 h2), bs ++ cs, by simp [hb, hc]⟩

theorem ReadKeeps.service' {s t : State} (h : ReadKeeps s t) : ServiceKeeps s t :=
  ⟨h.regs, h.pc, h.cond, h.wf, h.mem, [], by simp [h.output]⟩

theorem OutKeeps.service' {s t : State} (h : OutKeeps s t) : ServiceKeeps s t :=
  ⟨h.regs, h.pc, h.cond, fun w => by rw [h.mem]; exact w, fun _ _ _ _ => by rw [h.mem], h.extends_⟩

theorem pollRaise_keeps (s : State) : ServiceKeeps s ((s.setPorts s.ports.afterPoll).raise .inputError) :=
  ⟨rfl, rfl, rfl, id, fun _ _ _ _ => rfl, [], by simp⟩

/-- How an operation leaves the run: still as it was with the same report, or FAULTED for a reason of the console. -/
def RunsOnOrFaults (s t : State) : Prop :=
  (t.runState = s.runState ∧ t.ports.report = s.ports.report) ∨
    ((t.runState = .faulted .inputError ∨ t.runState = .faulted .outputError) ∧
      ∀ r, t.runState = .faulted r → t.ports.report = Config.faultMessage r)

theorem RunsOnOrFaults.trans {s t u : State} (h1 : t.runState = s.runState) (h2 : t.ports.report = s.ports.report)
    (h : RunsOnOrFaults t u) : RunsOnOrFaults s u :=
  h.imp (fun k => ⟨k.1.trans h1, k.2.trans h2⟩) id

/-- Everything a string service can do, for any way `put` of writing a word's bytes `f w`: keep the core, and end (or
fault) in the service it was in, or be left unfinished in the run state it was in. -/
theorem stringLoop_cases (put : Word → State → Result Unit) (unfinished : Word → Service) (f : Word → List Byte)
    (hput : ∀ w s, put w s = outBytes (f w) s) (fuel : Nat) (a : Word) (s : State) :
    ServiceKeeps s (stringLoop put unfinished fuel a s) ∧
      (((stringLoop put unfinished fuel a s).service = s.service ∧
          RunsOnOrFaults s (stringLoop put unfinished fuel a s)) ∨
        ((∃ b, (stringLoop put unfinished fuel a s).service = unfinished b) ∧
          (stringLoop put unfinished fuel a s).runState = s.runState ∧
          (stringLoop put unfinished fuel a s).ports.report = s.ports.report)) := by
  induction fuel generalizing a s with
  | zero => exact ⟨⟨rfl, rfl, rfl, id, fun _ _ _ _ => rfl, [], by simp [stringLoop]⟩, .inr ⟨⟨a, rfl⟩, rfl, rfl⟩⟩
  | succ n ih =>
    rw [stringLoop]
    rcases memRead_cases a s with ⟨s', e, k⟩ | ⟨-, e⟩
    · rw [e, andThen_ok]
      split
      · exact ⟨k.service', .inl ⟨k.service, .inl ⟨k.runState, k.report⟩⟩⟩
      · rw [hput]
        rcases outBytes_cases (f (s'.mem.read a)) s' with ⟨t, e2, k2, hr, hp, -⟩ | ⟨t, e2, k2, hr, hp⟩
        · rw [e2, andThen_ok]
          obtain ⟨k3, h3⟩ := ih (a + 1) t
          have hr' := hr.trans k.runState
          have hp' := hp.trans k.report
          refine ⟨(k.service'.trans k2.service').trans k3, h3.imp (fun h => ⟨?_, h.2.trans hr' hp'⟩)
            (fun h => ⟨h.1, h.2.1.trans hr', h.2.2.trans hp'⟩)⟩
          exact h.1.trans (k2.service.trans k.service)
        · rw [e2, andThen_raised]
          refine ⟨k.service'.trans k2.service', .inl ⟨k2.service.trans k.service, .inr ⟨.inr hr, fun r h => ?_⟩⟩⟩
          rw [hr] at h
          cases h
          exact hp
    · rw [e, andThen_raised]
      refine ⟨pollRaise_keeps s, .inl ⟨rfl, .inr ⟨.inl rfl, fun r h => ?_⟩⟩⟩
      cases h
      rfl

/-! ### Waiting for a byte -/

/-- Everything `awaitByte` can do: deliver a byte, fault, or wait. -/
theorem awaitByte_cases (waiting : Service) (deliver : Byte → State → State) (s : State) :
    (∃ b, s.ports.readAnswer = .byte b ∧
        awaitByte waiting deliver s = deliver b (trapReturn (s.setPorts s.ports.afterRead))) ∨
      ((s.ports.readAnswer = .eof ∨ s.ports.readAnswer = .error) ∧
        awaitByte waiting deliver s = (trapReturn (s.setPorts s.ports.afterRead)).raise .inputError) ∨
      (s.ports.readAnswer = .wait ∧
        awaitByte waiting deliver s = (s.setPorts s.ports.afterRead).setService waiting) := by
  unfold awaitByte
  cases s.ports.readAnswer with
  | byte b => exact .inl ⟨b, rfl, rfl⟩
  | eof => exact .inr (.inl ⟨.inl rfl, rfl⟩)
  | error => exact .inr (.inl ⟨.inr rfl, rfl⟩)
  | wait => exact .inr (.inr ⟨rfl, rfl⟩)

/-! ### The step -/

/-- With no service in progress a step of a running machine is an instruction cycle (R70). -/
theorem step_running_idle {s : State} (h1 : s.runState = .running) (h2 : s.service = .idle) :
    step s = instructionCycle s := by
  simp [step, h1, h2]

theorem step_running_service {s : State} (h1 : s.runState = .running) (h2 : s.service ≠ .idle) :
    step s = .next (resumeService s) := by
  unfold step
  rw [h1]
  cases h : s.service <;> first | rfl | exact absurd h h2

/-- Everything an instruction cycle can do: execute the fetched instruction, stop at the decoder's defensive arm, or end
in the fault of the fetch. -/
theorem instructionCycle_cases (s : State) :
    (∃ s', ReadKeeps s s' ∧ instructionCycle s = dispatchWord (s'.mem.read s.pc) (s'.setPc (s.pc + 1))) ∨
      (s.pc = kbsrAddr ∧ instructionCycle s = .next ((s.setPorts s.ports.afterPoll).raise .inputError)) := by
  unfold instructionCycle
  rcases fetch_cases s with ⟨s', e, k⟩ | ⟨h, e⟩
  · exact .inl ⟨s', k, by rw [e]⟩
  · exact .inr ⟨h, by rw [e]⟩

end Sys2Proof.Machine
end

