-- ==== Sys2Proof/Tests/Slice0.lean ====
section
/-! SUPPORT. Checks of the model by hand: ill-formed terms, words written out from the spec's encodings, one step on a
small state with the result that 95_test_vectors.md gives, and for each statement with hypotheses a state that meets them.
An expected value comes from the vector its comment names. -/

namespace Sys2Proof.Tests

open Sys2Proof.Machine

/-! ### WellFormed: an ill-formed term for each check -/

theorem test_jmp_r7_is_ill_formed : Instr.wf (.jmp 7) = false := by decide
theorem test_jmp_r6_is_well_formed : Instr.wf (.jmp 6) = true := by decide
theorem test_service_vectors_are_ill_formed :
    Instr.wf (.trapInvalid 0x20) = false ∧ Instr.wf (.trapInvalid 0x25) = false := by decide
theorem test_vectors_beside_the_services_are_well_formed :
    Instr.wf (.trapInvalid 0x1F) = true ∧ Instr.wf (.trapInvalid 0x26) = true := by decide

/-! ### Decode: a word of every constructor, bit by bit from the formats of 30_encoding.md -/

/-- BRnzp, offset 5: 0000 111 000000101 (BR1) -/
theorem test_decode_br : decode 0b0000111000000101 = .ok (.br true true true 5) := by decide
/-- BRp, offset -3: 0000 001 111111101 (BR8) -/
theorem test_decode_brp : decode 0b0000001111111101 = .ok (.br false false true (-3)) := by decide
/-- ADD R0,R1,R2: 0001 000 001 0 00 010 (OP1); with bits [4:3] = 11 too (OP6) -/
theorem test_decode_add : decode 0b0001000001000010 = .ok (.addReg 0 1 2) ∧
    decode 0b0001000001011010 = .ok (.addReg 0 1 2) := by decide
/-- ADD R1,R1,#-1: 0001 001 001 1 11111 (OP7) -/
theorem test_decode_add_imm : decode 0b0001001001111111 = .ok (.addImm 1 1 (-1)) := by decide
/-- LD R2,#2: 0010 010 000000010 (MEM1) -/
theorem test_decode_ld : decode 0b0010010000000010 = .ok (.ld 2 2) := by decide
/-- ST R0,#-1: 0011 000 111111111 (MEM20) -/
theorem test_decode_st : decode 0b0011000111111111 = .ok (.st 0 (-1)) := by decide
/-- JSR #1023: 0100 1 01111111111 (JP5) -/
theorem test_decode_jsr : decode 0b0100101111111111 = .ok (.jsr 1023) := by decide
/-- JSRR R2: 0100 0 00 010 000000 (JP6) -/
theorem test_decode_jsrr : decode 0b0100000010000000 = .ok (.jsrr 2) := by decide
/-- AND R3,R1,R2: 0101 011 001 0 00 010 (OP12) -/
theorem test_decode_and : decode 0b0101011001000010 = .ok (.andReg 3 1 2) := by decide
/-- AND R0,R1,#-16: 0101 000 001 1 10000 (OP17) -/
theorem test_decode_and_imm : decode 0b0101000001110000 = .ok (.andImm 0 1 (-16)) := by decide
/-- LDR R1,R1,#-32: 0110 001 001 100000 (MEM13) -/
theorem test_decode_ldr : decode 0b0110001001100000 = .ok (.ldr 1 1 (-32)) := by decide
/-- STR R2,R1,#1: 0111 010 001 000001 (MEM26) -/
theorem test_decode_str : decode 0b0111010001000001 = .ok (.str 2 1 1) := by decide
/-- RTI with other bits set (NOP2) -/
theorem test_decode_rti : decode 0b1000111111111111 = .ok .rti := by decide
/-- NOT R4,R1: 1001 100 001 111111 (OP19); with bits [5:0] = 0, NOT R0,R1 (OP22) -/
theorem test_decode_not : decode 0b1001100001111111 = .ok (.notReg 4 1) ∧
    decode 0b1001000001000000 = .ok (.notReg 0 1) := by decide
/-- LDI R3,#4: 1010 011 000000100 (W4) -/
theorem test_decode_ldi : decode 0b1010011000000100 = .ok (.ldi 3 4) := by decide
/-- STI R4,#2: 1011 100 000000010 (MEM22) -/
theorem test_decode_sti : decode 0b1011100000000010 = .ok (.sti 4 2) := by decide
/-- JMP R2: 1100 000 010 000000 (JP1); RET: 1100 000 111 000000 (JP2) -/
theorem test_decode_jmp : decode 0b1100000010000000 = .ok (.jmp 2) ∧ decode 0b1100000111000000 = .ok .ret := by decide
/-- RES with other bits set (NOP3) -/
theorem test_decode_res : decode 0b1101111111111111 = .ok .res := by decide
/-- LEA R1,#11: 1110 001 000001011 (MEM14) -/
theorem test_decode_lea : decode 0b1110001000001011 = .ok (.lea 1 11) := by decide
/-- TRAP 0x20 to 0x25: 1111 0000 vvvvvvvv (R86) -/
theorem test_decode_traps : decode 0b1111000000100000 = .ok .trapGetc ∧ decode 0b1111000000100001 = .ok .trapOut ∧
    decode 0b1111000000100010 = .ok .trapPuts ∧ decode 0b1111000000100011 = .ok .trapIn ∧
    decode 0b1111000000100100 = .ok .trapPutsp ∧ decode 0b1111000000100101 = .ok .trapHalt := by decide
/-- OUT with bits [11:8] = 1111 (TR25), and three invalid vectors (TR22 to TR24) -/
theorem test_decode_trap_edges : decode 0xFF21 = .ok .trapOut ∧ decode 0xF026 = .ok (.trapInvalid 0x26) ∧
    decode 0xF000 = .ok (.trapInvalid 0x00) ∧ decode 0xF0FF = .ok (.trapInvalid 0xFF) := by decide
/-- The words that R86 gives for RTI, RET and the services, from the encoder. -/
theorem test_encode_words : encode .rti = 0x8000 ∧ encode .ret = 0xC1C0 ∧ encode .trapHalt = 0xF025 ∧
    encode (.notReg 4 2) = 0x98BF := by decide
theorem test_decode_table_word : decodeTableWord 16 0x1042 = some (.addReg 0 1 2) ∧
    decodeTableWord 16 0x10000 = none := by decide

/-! ### Small states -/

/-- A host whose input is `bytes` and then ends, and whose coming answers are these. -/
def host (bytes : List Byte) (polls : List PollChoice) (reads : List ReadChoice) (outs : List OutChoice) : Ports :=
  { State.reset.ports with input := bytes, inputEnds := true, polls := polls, reads := reads, outs := outs }

/-- A running core at `pc` with these words in memory and these registers. -/
def running (pc : Word) (words : List (Word × Word)) (regs : List (Reg × Word)) (p : Ports) : State :=
  regs.foldl (fun s r => s.setReg r.1 r.2)
    (words.foldl (fun s w => s.setWord w.1 w.2) ((State.reset.setPc pc).setPorts p))

/-- No host answer is listed. -/
def quiet : Ports := host [] [] [] []

/-- Whether a step answers a next state that passes `check`. -/
def stepsTo (s : State) (check : State → Bool) : Bool :=
  match step s with
  | .next t => check t
  | .fault _ | .refused _ => false

/-! ### Operate -/

/-- OP2: 0x7FFF + 1 = 0x8000 sets N. -/
theorem test_add_signed_overflow : stepsTo (running 0x3000 [(0x3000, 0x1042)] [(1, 0x7FFF), (2, 1)] quiet)
    (fun t => t.reg 0 == 0x8000 && t.cond == 4 && t.pc == 0x3001) = true := by decide
/-- OP5: a source that is the destination. -/
theorem test_add_doubles : stepsTo (running 0x3000 [(0x3000, 0x1249)] [(1, 0x1234)] quiet)
    (fun t => t.reg 1 == 0x2468 && t.cond == 1) = true := by decide
/-- W3: ADD R1,R1,#-1 on 5. -/
theorem test_add_imm_minus_one : stepsTo (running 0x3000 [(0x3000, 0x127F)] [(1, 5)] quiet)
    (fun t => t.reg 1 == 4 && t.cond == 1 && t.pc == 0x3001) = true := by decide
/-- OP8: ADD R0,R1,#-16 on 0x0010. -/
theorem test_add_imm_minus_sixteen : stepsTo (running 0x3000 [(0x3000, 0x1070)] [(1, 0x0010)] quiet)
    (fun t => t.reg 0 == 0 && t.cond == 2) = true := by decide
/-- OP14: 0x8000 & 0xFFFF. -/
theorem test_and_negative : stepsTo (running 0x3000 [(0x3000, 0x5642)] [(1, 0x8000), (2, 0xFFFF)] quiet)
    (fun t => t.reg 3 == 0x8000 && t.cond == 4) = true := by decide
/-- OP17: the sign of imm5 reaches bit 15. -/
theorem test_and_imm_sign_extends : stepsTo (running 0x3000 [(0x3000, 0x5070)] [(1, 0xABCD)] quiet)
    (fun t => t.reg 0 == 0xABC0 && t.cond == 4) = true := by decide
/-- OP21: NOT 0x8000. -/
theorem test_not : stepsTo (running 0x3000 [(0x3000, 0x98BF)] [(2, 0x8000)] quiet)
    (fun t => t.reg 4 == 0x7FFF && t.cond == 1) = true := by decide

/-! ### Loads, stores, LEA -/

/-- MEM2: the address of LD wraps to 0xFFFF. -/
theorem test_ld_wraps : stepsTo (running 0x0000 [(0x0000, 0x21FE), (0xFFFF, 0x8001)] [] quiet)
    (fun t => t.reg 0 == 0x8001 && t.cond == 4 && t.pc == 1) = true := by decide
/-- MEM4: LD at KBSR_ADDR with a byte available. -/
theorem test_ld_polls : stepsTo (running 0xFDFF [(0xFDFF, 0x2000)] [] (host [0x61] [.ready] [] []))
    (fun t => t.reg 0 == 0x8000 && t.mem.read 0xFE00 == 0x8000 && t.mem.read 0xFE02 == 0x0061 && t.cond == 4
      && t.ports.inputTaken == 1) = true := by decide
/-- MEM9: LDI's pointer read polls NotAvail and gives address 0. -/
theorem test_ldi_pointer_polls : stepsTo (running 0xFDFF [(0xFDFF, 0xA000), (0, 7)] [] (host [] [.notReady] [] []))
    (fun t => t.reg 0 == 7 && t.mem.read 0xFE00 == 0 && t.cond == 1 && t.pc == 0xFE00) = true := by decide
/-- W4: LDI goes through the pointer. -/
theorem test_ldi : stepsTo (running 0x3002 [(0x3002, 0xA604), (0x3007, 0x300B), (0x300B, 3)] [] quiet)
    (fun t => t.reg 3 == 3 && t.cond == 1 && t.pc == 0x3003) = true := by decide
/-- MEM11: LDR with DR = BaseR. -/
theorem test_ldr_base_is_destination : stepsTo (running 0x3000 [(0x3000, 0x6240), (0x300C, 7)] [(1, 0x300C)] quiet)
    (fun t => t.reg 1 == 7 && t.cond == 1) = true := by decide
/-- MEM13: offset -32 from 0. -/
theorem test_ldr_wraps : stepsTo (running 0x3000 [(0x3000, 0x6260), (0xFFE0, 9)] [] quiet)
    (fun t => t.reg 1 == 9) = true := by decide
/-- MEM15: LEA at 0xFFFF gives its own address; pc wraps. -/
theorem test_lea_wraps : stepsTo (running 0xFFFF [(0xFFFF, 0xE1FF)] [] quiet)
    (fun t => t.reg 0 == 0xFFFF && t.cond == 4 && t.pc == 0) = true := by decide
/-- MEM17: LEA of KBSR_ADDR polls nothing, although a byte is ready. -/
theorem test_lea_never_polls : stepsTo (running 0xFDFF [(0xFDFF, 0xE000)] [] (host [0x61] [.ready] [] []))
    (fun t => t.reg 0 == 0xFE00 && t.mem.read 0xFE00 == 0 && t.ports.inputTaken == 0) = true := by decide
/-- MEM20: ST overwrites itself. -/
theorem test_st_over_itself : stepsTo (running 0x3000 [(0x3000, 0x31FF)] [(0, 0xABCD)] quiet)
    (fun t => t.mem.read 0x3000 == 0xABCD && t.cond == 0 && t.pc == 0x3001) = true := by decide
/-- MEM21: a store to KBSR_ADDR is plain. -/
theorem test_st_to_kbsr_is_plain : stepsTo (running 0xFDFF [(0xFDFF, 0x3000)] [(0, 0x1234)] quiet)
    (fun t => t.mem.read 0xFE00 == 0x1234) = true := by decide
/-- MEM24: STI's pointer read polls, and the store goes to address 0. -/
theorem test_sti_pointer_polls : stepsTo (running 0xFDFF [(0xFDFF, 0xB000)] [(0, 0x7777)] (host [] [.notReady] [] []))
    (fun t => t.mem.read 0xFE00 == 0 && t.mem.read 0 == 0x7777) = true := by decide
/-- MEM25: STI whose pointer read faults stores nothing. -/
theorem test_sti_fault_stores_nothing :
    stepsTo (running 0xFDFF [(0xFDFF, 0xB000)] [(0, 0x7777)] (host [] [.error] [] []))
      (fun t => t.runState == .faulted .inputError && t.mem.read 0 == 0 && t.mem.read 0x8000 == 0 && t.pc == 0xFE00)
        = true := by decide
/-- MEM27: STR with SR = BaseR, wrapping. -/
theorem test_str_wraps : stepsTo (running 0x3000 [(0x3000, 0x7241)] [(1, 0xFFFF)] quiet)
    (fun t => t.mem.read 0 == 0xFFFF && t.cond == 0) = true := by decide

/-! ### Control -/

/-- BR1: at reset even BRnzp falls through. -/
theorem test_br_falls_through_at_reset : stepsTo (running 0x3000 [(0x3000, 0x0E05)] [] quiet)
    (fun t => t.pc == 0x3001) = true := by decide
/-- BR8: BRp back by 3. -/
theorem test_brp_backward : stepsTo ((running 0x3005 [(0x3005, 0x03FD)] [] quiet).setCond 1)
    (fun t => t.pc == 0x3003 && t.cond == 1) = true := by decide
/-- JP1 -/
theorem test_jmp : stepsTo (running 0x3000 [(0x3000, 0xC080)] [(2, 0x4000)] quiet)
    (fun t => t.pc == 0x4000 && t.reg 7 == 0) = true := by decide
/-- JP2 -/
theorem test_ret : stepsTo (running 0x3000 [(0x3000, 0xC1C0)] [(7, 0x3004)] quiet)
    (fun t => t.pc == 0x3004) = true := by decide
/-- JP4: JSR to itself. -/
theorem test_jsr_to_itself : stepsTo (running 0x3000 [(0x3000, 0x4FFF)] [] quiet)
    (fun t => t.pc == 0x3000 && t.reg 7 == 0x3001 && t.cond == 0) = true := by decide
/-- JP6 -/
theorem test_jsrr : stepsTo (running 0x3000 [(0x3000, 0x4080)] [(2, 0x4000)] quiet)
    (fun t => t.pc == 0x4000 && t.reg 7 == 0x3001) = true := by decide
/-- JP7: JSRR R7 falls through (D11). -/
theorem test_jsrr_r7 : stepsTo (running 0x3003 [(0x3003, 0x41C0)] [(7, 0x3006)] quiet)
    (fun t => t.pc == 0x3004 && t.reg 7 == 0x3004) = true := by decide
/-- NOP2 -/
theorem test_rti : stepsTo (running 0x3000 [(0x3000, 0x8FFF)] [(1, 5)] quiet)
    (fun t => t.pc == 0x3001 && t.reg 1 == 5 && t.cond == 0) = true := by decide
/-- NOP3 -/
theorem test_res : stepsTo ((running 0x3000 [(0x3000, 0xDFFF)] [] quiet).setCond 4)
    (fun t => t.pc == 0x3001 && t.cond == 4) = true := by decide

/-! ### Fetch at KBSR_ADDR -/

/-- EX2: the poll's 0x8000 executes as RTI. -/
theorem test_fetch_polls : stepsTo (running 0xFE00 [] [] (host [0x41] [.ready] [] []))
    (fun t => t.mem.read 0xFE00 == 0x8000 && t.mem.read 0xFE02 == 0x0041 && t.pc == 0xFE01) = true := by decide
/-- EX3: a fetch whose poll fails leaves pc. -/
theorem test_fetch_fault_keeps_pc : stepsTo (running 0xFE00 [] [] (host [] [.error] [] []))
    (fun t => t.runState == .faulted .inputError && t.pc == 0xFE00) = true := by decide

/-! ### Trap services -/

/-- TR1 -/
theorem test_getc (h : Config.trapInSetsCond = false) :
    stepsTo (running 0x3000 [(0x3000, 0xF020)] [] (host [0x61] [] [.answer] []))
      (fun t => t.reg 0 == 0x0061 && t.reg 7 == 0x3001 && t.pc == 0x3001 && t.cond == 0 && t.ports.output == []) = true := by
  delta stepsTo step instructionCycle dispatchWord exec execTrapGetc getcService deliverByte State.setInput
  rw [h]
  decide
/-- TR4: 0xFF is zero-extended, so with TIC = 1 COND is P. -/
theorem test_getc_sets_cond (h : Config.trapInSetsCond = true) :
    stepsTo (running 0x3000 [(0x3000, 0xF020)] [] (host [0xFF] [] [.answer] []))
      (fun t => t.reg 0 == 0x00FF && t.cond == 1) = true := by
  delta stepsTo step instructionCycle dispatchWord exec execTrapGetc getcService deliverByte State.setInput
  rw [h]
  decide
/-- TR6: the high byte of R0 is ignored. -/
theorem test_out : stepsTo (running 0x3000 [(0x3000, 0xF021)] [(0, 0x1241)] (host [] [] [] [.accept]))
    (fun t => t.ports.output == [0x41] && t.reg 7 == 0x3001 && t.reg 0 == 0x1241) = true := by decide
/-- TR7 -/
theorem test_out_error : stepsTo (running 0x3000 [(0x3000, 0xF021)] [(0, 0x0041)] (host [] [] [] [.error]))
    (fun t => t.ports.output == [] && t.runState == .faulted .outputError && t.reg 7 == 0x3001) = true := by decide
/-- TR11: the string wraps past 0xFFFF. -/
theorem test_puts_wraps :
    stepsTo (running 0x3000 [(0x3000, 0xF022), (0xFFFF, 0x0041), (0, 0x0042)] [(0, 0xFFFF)]
      (host [] [] [] [.accept, .accept]))
      (fun t => t.ports.output == [0x41, 0x42] && t.reg 0 == 0xFFFF && t.reg 7 == 0x3001) = true := by decide
/-- TR12: the byte before the error stays output. -/
theorem test_puts_error :
    stepsTo (running 0x3000 [(0x3000, 0xF022), (0x3100, 0x48), (0x3101, 0x69)] [(0, 0x3100)]
      (host [] [] [] [.accept, .error]))
      (fun t => t.ports.output == [0x48] && t.runState == .faulted .outputError) = true := by decide
/-- TR14: the prompt, the echo, and R0. -/
theorem test_in (h : Config.inPrompt = [0x49, 0x4E, 0x3E]) (hc : Config.trapInSetsCond = false) :
    stepsTo (running 0x3000 [(0x3000, 0xF023)] [] (host [0x7A] [] [.answer] (List.replicate 4 .accept)))
      (fun t => t.ports.output == [0x49, 0x4E, 0x3E, 0x7A] && t.reg 0 == 0x007A && t.reg 7 == 0x3001 && t.cond == 0)
        = true := by
  delta stepsTo step instructionCycle dispatchWord exec execTrapIn inService echoByte deliverByte State.setInput
  rw [h, hc]
  decide
/-- TR17: a failed echo leaves R0 unwritten, the byte consumed. -/
theorem test_in_echo_error (h : Config.inPrompt = [0x49, 0x4E, 0x3E]) :
    stepsTo (running 0x3000 [(0x3000, 0xF023)] [] (host [0x7A] [] [.answer] [.accept, .accept, .accept, .error]))
      (fun t => t.ports.output == [0x49, 0x4E, 0x3E] && t.reg 0 == 0 && t.runState == .faulted .outputError
        && t.ports.inputTaken == 1) = true := by
  delta stepsTo step instructionCycle dispatchWord exec execTrapIn
  rw [h]
  decide
/-- TR18: "Ok!" -/
theorem test_putsp :
    stepsTo (running 0x3000 [(0x3000, 0xF024), (0x3100, 0x6B4F), (0x3101, 0x0021)] [(0, 0x3100)]
      (host [] [] [] [.accept, .accept, .accept]))
      (fun t => t.ports.output == [0x4F, 0x6B, 0x21] && t.reg 0 == 0x3100) = true := by decide
/-- TR19: a zero low byte is output (D21). -/
theorem test_putsp_zero_low_byte :
    stepsTo (running 0x3000 [(0x3000, 0xF024), (0x3100, 0x4100)] [(0, 0x3100)] (host [] [] [] [.accept, .accept]))
      (fun t => t.ports.output == [0x00, 0x41]) = true := by decide
/-- TR20 -/
theorem test_halt (h : Config.haltMessage = [0x68]) :
    stepsTo (running 0x3007 [(0x3007, 0xF025)] [] (host [] [] [] [.accept]))
      (fun t => t.runState == .halted && t.reg 7 == 0x3008 && t.pc == 0x3008 && t.ports.output == [0x68]) = true := by
  delta stepsTo step instructionCycle dispatchWord exec execTrapHalt
  rw [h]
  decide
/-- TR21 -/
theorem test_halt_error (h : Config.haltMessage = [0x68]) :
    stepsTo (running 0x3000 [(0x3000, 0xF025)] [] (host [] [] [] [.error]))
      (fun t => t.runState == .faulted .outputError && t.reg 7 == 0x3001 && t.ports.output == []) = true := by
  delta stepsTo step instructionCycle dispatchWord exec execTrapHalt
  rw [h]
  decide
/-- TR22 and its status -/
theorem test_invalid_vector : stepsTo (running 0x3000 [(0x3000, 0xF026)] [] quiet)
    (fun t => t.status == .faulted 1 (.invalidTrap 0x26) && t.reg 7 == 0x3001 && t.pc == 0x3001) = true := by decide

/-! ### Host interface: the first instruction after reset, and the load port -/

theorem test_first_instruction_after_reset : stepsTo (State.reset.withFetchWord 16 0x1021)
    (fun t => t.reg 0 == 1 && t.pc == 0x3001 && t.cond == 1) = true := by decide

/-- Whether an image loads with this count and a state that passes `check`. -/
def loads (images : List Byte) (count : Nat) (check : State → Bool) : Bool :=
  match loadImage images State.reset with
  | .ok r => r.2 == count && check r.1
  | .error _ => false

/-- R220, R230: the embedding's RESET_PC, and an image whose origin does not change it. -/
theorem test_boot : ((boot 0x4000 [[0x30, 0x00, 0x12, 0x34]]).toOption.map fun t => (t.pc, t.mem)) =
    some (0x4000, [(0x3000, 0x1234)]) := by decide

/-- W6, and EX7's odd trailing byte -/
theorem test_image : loads [0x30, 0x00, 0x12, 0x34, 0xAB, 0xCD] 2
      (fun t => t.mem.read 0x3000 == 0x1234 && t.mem.read 0x3001 == 0xABCD && t.pc == 0x3000) = true ∧
    loads [0x30, 0x00, 0x12, 0x34, 0xAB] 1 (fun t => t.mem == [(0x3000, 0x1234)]) = true := by decide
/-- EX8 -/
theorem test_image_past_the_top : loads [0xFF, 0xFF, 0x11, 0x11, 0x22, 0x22] 1
    (fun t => t.mem == [(0xFFFF, 0x1111)]) = true := by decide
/-- EX9 -/
theorem test_image_of_the_origin_only : (loadImage [0x30, 0x00] State.reset).toOption = none := by decide
/-- EX10 -/
theorem test_images_overlap :
    ((loadImages [[0x30, 0x00, 0x11, 0x11, 0x22, 0x22], [0x30, 0x01, 0x33, 0x33]] State.reset).toOption.map (·.mem)) =
      some [(0x3000, 0x1111), (0x3001, 0x3333)] := by decide

/-! ### Witnesses: states that meet the hypotheses of each statement, clause by clause

A statement whose only hypothesis is a match of a word's bits has its boundary words in `witness_words`. -/

/-- A running core at 0xFFFF, in no service, with one word in memory. -/
def plain : State := running 0xFFFF [(0xFFFF, 0x1042)] [(1, 3)] quiet

/-- A core that waits in a service, x[7] = pc. -/
def waiting (v : Service) (p : Ports) : State := (running 0x3001 [] [(7, 0x3001)] p).setService v

theorem witness_invariant_running : plain.Inv ∧ (∃ t, step plain = .next t) :=
  ⟨⟨by decide, .inl rfl, fun h => absurd rfl h, fun _ => rfl, fun _ h => (nomatch h), fun h => (nomatch h),
    fun _ h => (nomatch h)⟩, _, rfl⟩

theorem witness_invariant_waiting : (waiting .getc quiet).Inv ∧ (waiting .getc quiet).service ≠ .idle :=
  ⟨⟨by decide, .inl rfl, fun _ => ⟨rfl, by decide⟩, fun _ => rfl, fun _ h => (nomatch h), fun h => (nomatch h),
    fun _ h => (nomatch h)⟩, by decide⟩

theorem witness_invariant_faulted : (plain.setReg 7 0xFFFF |>.raise (.invalidTrap 0x26)).Inv :=
  ⟨by decide, .inl rfl, fun h => absurd rfl h, fun h => absurd rfl (h (.invalidTrap 0x26)),
    fun _ h => (by cases h; rfl), fun h => (nomatch h), fun _ h => (by cases h; decide)⟩

/-- TR20's end state: HALTED with x[7] = pc. -/
theorem witness_invariant_halted : (running 0x3008 [] [(7, 0x3008)] quiet).halt.Inv ∧
    (running 0x3008 [] [(7, 0x3008)] quiet).halt.runState = .halted :=
  ⟨⟨by decide, .inl rfl, fun h => absurd rfl h, fun _ => rfl, fun _ h => (nomatch h), fun _ => by decide,
    fun _ h => (nomatch h)⟩, rfl⟩

theorem witness_ended_run : plain.halt.status ≠ .running ∧ (plain.raise .outputError).status ≠ .running := by decide

theorem witness_step_runs : plain.runState = .running ∧ plain.service = .idle ∧ plain.pc ≠ kbsrAddr ∧
    decode (plain.mem.read plain.pc) = .ok (.addReg 0 1 2) := by decide

theorem witness_store_then_fetch : plain.mem.wf = true ∧ plain.runState = .running ∧ plain.service = .idle ∧
    plain.pc ≠ kbsrAddr := by decide

/-- A core about to fetch at KBSR_ADDR, with a host that answers the poll by `c`. -/
def atKbsr (c : PollChoice) : State := running 0xFE00 [(0xFE00, 0x1234)] [] (host [0x41] [c] [] [])

theorem witness_fetch_at_kbsr (c : PollChoice) : (atKbsr c).mem.wf = true ∧ (atKbsr c).runState = .running ∧
    (atKbsr c).service = .idle ∧ (atKbsr c).pc = kbsrAddr := by cases c <;> decide

theorem witness_poll_answers : (atKbsr .notReady).ports.pollAnswer = .notAvail ∧
    (atKbsr .ready).ports.pollAnswer = .avail 0x41 ∧ (atKbsr .error).ports.pollAnswer = .error := by decide

theorem witness_status : plain.runState = .running ∧ plain.halt.runState = .halted ∧
    (plain.raise (.invalidTrap 0xFF)).runState = .faulted (.invalidTrap 0xFF) ∧
    (plain.raise .inputError).runState = .faulted .inputError ∧
    (plain.raise .outputError).runState = .faulted .outputError := by decide

theorem witness_well_formed : Instr.wf (.addImm 7 7 (-16)) = true ∧ Instr.wf (.jmp 6) = true ∧
    Instr.wf (.trapInvalid 0x1F) = true ∧ Instr.wf (.jsr (-1024)) = true := by decide

/-- The last word of each masked row of DecodeFollowsTheOpcodeTable, TrapDecodesByItsLowByte, ST, BR, JMP, JSR, RTI, RES. -/
theorem witness_words :
    (0x1FDF : Word) &&& 0xF020 = 0x1000 ∧ (0x1FFF : Word) &&& 0xF020 = 0x1020 ∧ (0x2FFF : Word) &&& 0xF000 = 0x2000 ∧
    (0x47FF : Word) &&& 0xF800 = 0x4000 ∧ (0x5FDF : Word) &&& 0xF020 = 0x5000 ∧ (0x5FFF : Word) &&& 0xF020 = 0x5020 ∧
    (0x6FFF : Word) &&& 0xF000 = 0x6000 ∧ (0x7FFF : Word) &&& 0xF000 = 0x7000 ∧ (0x9FFF : Word) &&& 0xF000 = 0x9000 ∧
    (0xAFFF : Word) &&& 0xF000 = 0xA000 ∧ (0xBFFF : Word) &&& 0xF000 = 0xB000 ∧ (0xEFFF : Word) &&& 0xF000 = 0xE000 ∧
    (0x3FFF : Word) &&& 0xF000 = 0x3000 ∧ (0x0FFF : Word) &&& 0xF000 = 0x0000 ∧ (0xCFFF : Word) &&& 0xF000 = 0xC000 ∧
    (0x4FFF : Word) &&& 0xF800 = 0x4800 ∧ (0x8FFF : Word) &&& 0xF000 = 0x8000 ∧ (0xDFFF : Word) &&& 0xF000 = 0xD000 := by
  decide

theorem witness_trap_words :
    (0xFF20 : Word) &&& 0xF0FF = 0xF020 ∧ (0xFF21 : Word) &&& 0xF0FF = 0xF021 ∧ (0xFF22 : Word) &&& 0xF0FF = 0xF022 ∧
    (0xFF23 : Word) &&& 0xF0FF = 0xF023 ∧ (0xFF24 : Word) &&& 0xF0FF = 0xF024 ∧ (0xFF25 : Word) &&& 0xF0FF = 0xF025 ∧
    ((0xFF26 : Word) &&& 0xF000 = 0xF000 ∧
      ¬ (0x20 ≤ ((0xFF26 : Word).extractLsb 7 0).toNat ∧ ((0xFF26 : Word).extractLsb 7 0).toNat ≤ 0x25)) ∧
    ¬ (0x20 ≤ ((0xF01F : Word).extractLsb 7 0).toNat ∧ ((0xF01F : Word).extractLsb 7 0).toNat ≤ 0x25) := by decide

/-- The widths 1, 5 (W1) and 16. -/
theorem witness_sext : (sext (1 : BitVec 1)).toNat = 0xFFFF ∧ (sext (0x1F : BitVec 5)).toNat = 0xFFFF ∧
    (sext (0x0F : BitVec 5)).toNat = 0x000F ∧ (sext (0x8000 : BitVec 16)).toNat = 0x8000 := by decide

/-- The values of W2. -/
theorem witness_setcc : (plain.setcc 0).cond = condZ ∧ (plain.setcc 0x0001).cond = condP ∧
    (plain.setcc 0x7FFF).cond = condP ∧ (plain.setcc 0x8000).cond = condN ∧ (plain.setcc 0xFFFF).cond = condN := by decide

theorem witness_canonical_memory : plain.mem.wf = true ∧ plain.mem.read 0xFFFF = 0x1042 := by decide

/-- The neighbours of KBSR_ADDR are plain words. -/
theorem witness_plain_addresses : (0xFDFF : Word) ≠ kbsrAddr ∧ (0xFE01 : Word) ≠ kbsrAddr ∧ kbdrAddr ≠ kbsrAddr := by
  decide

theorem witness_stream : (host [0x41] [.ready] [] []).pollAnswer = .avail 0x41 ∧
    (host [0x41] [] [.answer] []).readAnswer = .byte 0x41 ∧ (host [] [.ready] [.answer] []).nextByte = none ∧
    (host [] [] [.answer] []).readAnswer = .eof ∧ (host [0x41] [.notReady] [] []).pollAnswer = .notAvail ∧
    (host [0x41] [] [.wait] []).readAnswer = .wait ∧ (host [0x41] [] [.error] []).readAnswer = .error := by decide

/-- The stream's first byte, its end, and its unlisted bytes; each choice of the host at a poll and at a read. -/
theorem witness_stream_choices : (host [0x41, 0x42] [] [] []).input = 0x41 :: [0x42] ∧
    ((host [] [] [] []).input = [] ∧ (host [] [] [] []).inputEnds = true) ∧
    (State.reset.ports.input = [] ∧ State.reset.ports.inputEnds = false) ∧
    ((host [] [.ready] [] []).pollChoice = .ready ∧ (host [] [.ready] [] []).nextByte = none) ∧
    (host [] [.notReady] [] []).pollChoice = .notReady ∧ (host [] [.error] [] []).pollChoice = .error ∧
    ((host [] [] [.answer] []).readChoice = .answer ∧ (host [] [] [.answer] []).nextByte = none) ∧
    (host [] [] [.error] []).readChoice = .error ∧ (host [] [] [.wait] []).readChoice = .wait := by decide

/-- Accepted by a host with that many acceptances listed, and failed by one that lists an error first. -/
theorem witness_accepts (bytes : List Byte) (polls : List PollChoice) (reads : List ReadChoice) (outs : List OutChoice)
    (n : Nat) : (host bytes polls reads (List.replicate n .accept ++ outs)).Accepts n := by
  intro i hi
  simp [host, Ports.outChoiceAt, List.getElem?_append_left, hi]

theorem witness_fails : (host [] [] [] [.error]).FailsAt 0 ∧ (host [] [] [] [.accept, .error]).FailsAt 1 :=
  ⟨⟨by intro i h; omega, rfl⟩, by intro i h; obtain rfl : i = 0 := by omega
                                  rfl, rfl⟩

/-- LD and LDR away from KBSR_ADDR, and at it with each end of the poll (MEM2, MEM4, MEM6). -/
theorem witness_loads : plain.pc + (0 : BitVec 9).signExtend 16 ≠ kbsrAddr ∧
    plain.reg 1 + (-32 : BitVec 6).signExtend 16 ≠ kbsrAddr ∧
    (running 0xFDFF [] [(1, 0xFE20)] quiet).pc + (1 : BitVec 9).signExtend 16 = kbsrAddr ∧
    (running 0xFDFF [] [(1, 0xFE20)] quiet).reg 1 + (-32 : BitVec 6).signExtend 16 = kbsrAddr := by decide

theorem witness_reads : (∃ t, memRead kbsrAddr (atKbsr .ready) = .ok 0x8000 t) ∧
    (∃ t, memRead kbsrAddr (atKbsr .notReady) = .ok 0x0000 t) ∧ (∃ t, memRead kbsrAddr (atKbsr .error) = .raised t) :=
  ⟨⟨_, rfl⟩, ⟨_, rfl⟩, ⟨_, rfl⟩⟩

/-- LDI and STI: a plain pointer, a pointer at KBSR_ADDR, and a pointer to it whose data poll fails (MEM7 to MEM9, MEM24). -/
theorem witness_pointers :
    (running 0x3003 [(0x3007, 0x300B)] [] quiet).mem.read (0x3003 + (4 : BitVec 9).signExtend 16) ≠ kbsrAddr ∧
    (∃ t u, memRead 0x3002 (running 0x3001 [(0x3002, 0xFE00)] [] (host [0x41] [.ready] [] [])) = .ok kbsrAddr t ∧
      memRead kbsrAddr t = .ok 0x8000 u) ∧
    (∃ t u, memRead 0x3002 (running 0x3001 [(0x3002, 0xFE00)] [] (host [] [.error] [] [])) = .ok kbsrAddr t ∧
      memRead kbsrAddr t = .raised u) :=
  ⟨by decide, ⟨_, _, rfl, rfl⟩, ⟨_, _, rfl, rfl⟩⟩

/-- A mask bit for each bit of COND, and the masks that match nothing (BR1, BR6). -/
theorem witness_masks : (0x0004 : Word).getLsbD 2 = true ∧ (0x0002 : Word).getLsbD 1 = true ∧
    (0x0001 : Word).getLsbD 0 = true ∧ (0x0000 : Word).getLsbD 2 = false ∧ (0x0000 : Word).getLsbD 1 = false ∧
    (0x0000 : Word).getLsbD 0 = false := by decide

/-- GETC and the waiting core: each answer of the host. -/
theorem witness_read_answers : (host [0xFF] [] [.answer] []).readAnswer = .byte 0xFF ∧
    (host [] [] [.answer] []).readAnswer = .eof ∧ (host [0xFF] [] [.error] []).readAnswer = .error ∧
    (host [0xFF] [] [.wait] []).readAnswer = .wait := by decide

theorem witness_out_answers : (host [] [] [] [.accept]).outChoice = .accept ∧
    (host [] [] [] [.error]).outChoice = .error := by decide

/-- A string of two words that wraps, and the empty one (TR10, TR11). -/
theorem witness_strings :
    (running 0x3000 [(0xFFFF, 0x0041), (0, 0x4200)] [(0, 0xFFFF)] quiet).mem.HoldsString 0xFFFF 2 ∧
    (running 0x3000 [] [] quiet).mem.HoldsString 0 0 := by
  unfold Memory.HoldsString
  decide

/-- A string of two words at 0xFFFF and a host with these answers. -/
def withString (outs : List OutChoice) : State :=
  running 0x3000 [(0xFFFF, 0x0041), (0, 0x4200)] [(0, 0xFFFF)] (host [] [] [] outs)

/-- PUTS: all clauses on one state; its last byte accepted, or failed. -/
theorem witness_puts : (withString [.accept, .accept]).mem.HoldsString ((withString [.accept, .accept]).reg 0) 2 ∧
    (withString [.accept, .accept]).ports.Accepts 2 ∧
    (withString [.accept, .error]).mem.HoldsString ((withString [.accept, .error]).reg 0) 2 ∧
    (withString [.accept, .error]).ports.FailsAt 1 := by
  unfold Memory.HoldsString Ports.FailsAt Ports.Accepts
  decide

/-- PUTSP: the same string packs three bytes (0x41; then 0x00, 0x42). -/
theorem witness_putsp : (((withString []).mem.words 0xFFFF 2).flatMap packedBytes).length = 3 ∧
    (withString [.accept, .accept, .accept]).ports.Accepts 3 ∧
    (withString [.accept, .accept, .error]).ports.FailsAt 2 := by
  unfold Ports.FailsAt Ports.Accepts
  decide

/-- TR13's state: one word before KBSR_ADDR, and each end of the poll after its byte. -/
def beforeKbsr (c : PollChoice) (outs : List OutChoice) : State :=
  running 0x3000 [(0xFDFF, 0x0041)] [(0, 0xFDFF)] (host [0x61] [c] [] outs)

/-- One word before KBSR_ADDR, and none (n = 0). -/
theorem witness_puts_polls (c : PollChoice) : (beforeKbsr c []).mem.wf = true ∧ 1 < 65536 ∧
    (beforeKbsr c []).reg 0 + BitVec.ofNat 16 1 = kbsrAddr ∧
    (∀ i, i < 1 → (beforeKbsr c []).mem.read ((beforeKbsr c []).reg 0 + BitVec.ofNat 16 i) ≠ 0) ∧
    (running 0x3000 [] [(0, 0xFE00)] quiet).reg 0 + BitVec.ofNat 16 0 = kbsrAddr := by cases c <;> decide

/-- The word 0x0041 is one byte of either service, accepted or failed. -/
theorem witness_puts_polls_output :
    ((beforeKbsr .ready []).mem.words 0xFDFF 1).flatMap lowByte = [0x41] ∧
    ((beforeKbsr .ready []).mem.words 0xFDFF 1).flatMap packedBytes = [0x41] ∧
    (beforeKbsr .ready [.accept]).ports.Accepts 1 ∧ (beforeKbsr .ready [.error]).ports.FailsAt 0 := by
  unfold Ports.FailsAt Ports.Accepts
  decide

theorem witness_puts_poll_answers :
    ((beforeKbsr .notReady [.accept]).ports.afterAccepted [0x41]).pollAnswer = .notAvail ∧
    ((beforeKbsr .error [.accept]).ports.afterAccepted [0x41]).pollAnswer = .error ∧
    ((beforeKbsr .ready [.accept]).ports.afterAccepted [0x41]).pollAnswer = .avail 0x61 := by decide

/-- The bytes of the polled 0x8000 (R173, R175), accepted or failed, and a string that ends right after KBSR_ADDR. -/
theorem witness_puts_goes_on : lowByte 0x8000 = [0x00] ∧ packedBytes 0x8000 = [0x00, 0x80] ∧
    ((beforeKbsr .ready [.accept, .accept, .accept]).ports.afterAccepted [0x41]).afterPoll.Accepts 2 ∧
    ((beforeKbsr .ready [.accept, .error]).ports.afterAccepted [0x41]).afterPoll.FailsAt 0 ∧
    ((beforeKbsr .ready [.accept, .accept, .error]).ports.afterAccepted [0x41]).afterPoll.FailsAt 1 ∧
    (beforeKbsr .ready []).mem.read (kbsrAddr + 1) = 0 := by
  unfold Ports.FailsAt Ports.Accepts
  decide

/-- A core inside a string service over the string of `withString`, its last byte accepted or failed. -/
theorem witness_string_goes_on (v : Service) :
    ((withString []).setService v).runState = .running ∧ ((withString []).setService v).service = v ∧
    ((withString []).setService v).mem.HoldsString 0xFFFF 2 ∧
    ((withString [.accept, .accept]).setService v).ports.Accepts 2 ∧
    ((withString [.accept, .error]).setService v).ports.FailsAt 1 ∧
    ((withString [.accept, .accept, .accept]).setService v).ports.Accepts 3 ∧
    ((withString [.accept, .accept, .error]).setService v).ports.FailsAt 2 :=
  ⟨rfl, rfl, witness_strings.1, witness_puts.2.1, witness_puts.2.2.2, witness_putsp.2.1, witness_putsp.2.2⟩

/-- Whether a step ends RUNNING and in no service. -/
def endsService (s : State) : Bool := stepsTo s fun t => t.runState == .running && t.service == .idle

/-- An empty string ends its service, from inside it and from the call. -/
theorem witness_string_ends : endsService (waiting (.puts 0x3100) quiet) = true ∧
    endsService (waiting (.putsp 0x3100) quiet) = true ∧
    endsService (running 0x3000 [(0x3000, 0xF022)] [(0, 0x3100)] quiet) = true ∧
    endsService (running 0x3000 [(0x3000, 0xF024)] [(0, 0x3100)] quiet) = true := by decide

/-- IN's host: the prompt accepted whatever it is, then each answer to the read and to the echo. -/
theorem witness_in (c : ReadChoice) (e : OutChoice) :
    let p := host [0x7A] [] [c] (List.replicate Config.inPrompt.length .accept ++ [e])
    p.Accepts Config.inPrompt.length ∧
      (c = .answer → (p.afterAccepted Config.inPrompt).readAnswer = .byte 0x7A ∧
        (p.afterAccepted Config.inPrompt).afterRead.outChoice = e) ∧
      (c = .error → (p.afterAccepted Config.inPrompt).readAnswer = .error) ∧
      (c = .wait → (p.afterAccepted Config.inPrompt).readAnswer = .wait) := by
  refine ⟨witness_accepts _ _ _ _ _, ?_, ?_, ?_⟩ <;> rintro rfl <;>
    simp [host, Ports.afterAccepted, Ports.readAnswer, Ports.readChoice, Ports.nextByte, Ports.afterRead,
      Ports.outChoice, Ports.takeByte]

theorem witness_in_eof : ((host [] [] [.answer] (List.replicate Config.inPrompt.length .accept)).afterAccepted
    Config.inPrompt).readAnswer = .eof := by
  simp [host, Ports.afterAccepted, Ports.readAnswer, Ports.readChoice, Ports.nextByte]

/-- The clauses of IN and HALT in which a byte of an OPEN text fails: there is one when that text is not empty (TR21). -/
theorem witness_text_fails (text : List Byte) (h : text ≠ []) :
    0 < text.length ∧ (host [] [] [] [.error]).FailsAt 0 := ⟨List.length_pos_of_ne_nil h, witness_fails.1⟩

/-- PUTSP's two forms of a word, and a string of both. -/
theorem witness_packed : packedBytes 0x6B4F = [0x4F, 0x6B] ∧ packedBytes 0x0021 = [0x21] ∧
    packedBytes 0x4100 = [0x00, 0x41] := by decide

theorem witness_waiting : (waiting .getc quiet).runState = .running ∧ (waiting .getc quiet).service = .getc ∧
    (waiting .inRead quiet).service = .inRead ∧
    (host [0x7A] [] [.answer] [.accept]).afterRead.outChoice = .accept ∧
    (host [0x7A] [] [.answer] [.error]).afterRead.outChoice = .error := by decide

/-- A PUTSP and a PUTS cut after the first word. -/
theorem witness_split_packed :
    (stringLoop putPackedWord .putsp 1 0x3100
      (running 0x3000 [(0x3100, 0x48), (0x3101, 0x69)] [] (host [] [] [] [.accept]))).service = .putsp 0x3101 := by decide

theorem witness_split : plain.service = .idle ∧
    (stringLoop putWord .puts 1 0x3100
      (running 0x3000 [(0x3100, 0x48), (0x3101, 0x69)] [] (host [] [] [] [.accept]))).service = .puts 0x3101 := by decide

/-- The rules over all instructions: an instruction of each kind that completes. -/
theorem witness_exec : (∃ t, exec (.addReg 0 1 2) plain = .next t) ∧ (∃ t, exec (.st 0 0) plain = .next t) ∧
    (∃ t, exec .trapOut plain = .next t) ∧ (∃ t, exec .trapHalt plain = .next t) :=
  ⟨⟨_, rfl⟩, ⟨_, rfl⟩, ⟨_, rfl⟩, ⟨_, rfl⟩⟩

theorem witness_lists : writesCond (.st 0 0) = false ∧ writesCond .trapOut = false ∧ writesPc .trapHalt = false ∧
    writesPc (.addReg 0 1 2) = false ∧ storesWord (.ld 0 0) = false ∧ writtenRegs (.jsr 0) = [7] := by decide

theorem witness_getc_cond (h : Config.trapInSetsCond = false) : writesCond .trapGetc = false ∧
    writesCond .trapIn = false := ⟨h, h⟩

theorem witness_not_br : ∀ n z p off, Instr.addReg 0 1 2 ≠ .br n z p off := nofun

/-- A fault and a halt of a running core. -/
theorem witness_fault_and_halt :
    (∃ t, exec (.trapInvalid 0x26) plain = .next t ∧ t.runState = .faulted (.invalidTrap 0x26)) ∧
    plain.runState = .running := ⟨⟨_, rfl, rfl⟩, rfl⟩

theorem witness_step_next : (∃ t, step plain = .next t) ∧ (∃ t, step (waiting .inRead quiet) = .next t) :=
  ⟨⟨_, rfl⟩, ⟨_, rfl⟩⟩

/-- Images: contents with an odd trailing byte, and none. -/
theorem witness_images_in_order :
    (loadImages [[0x30, 0x00, 0x11, 0x11, 0x22, 0x22]] State.reset).toOption.isSome = true ∧
    (loadImages [[0x30]] State.reset).toOption = none ∧ ([0x30] : List Byte).length < 2 ∧
    (loadImage [0x30, 0x00] State.reset).toOption = none := by decide

theorem witness_images : ([0xAB] : List Byte).length ≤ 1 ∧ ([0x1111] : List Word) ≠ [] ∧
    imageBytes [0x3000, 0x1234] = [0x30, 0x00, 0x12, 0x34] := by decide

end Sys2Proof.Tests
end

section
/-! The values of the word operations (R7, R8): sign extension, zero extension, and the two bytes of a word. -/

namespace Sys2Proof.Machine

/-- A non-negative field keeps its value; a negative one moves up by the gap between the two widths' moduli. -/
theorem toNat_sext {b : Nat} (v : BitVec b) :
    (sext v).toNat = (v.setWidth 16).toNat + if v.msb then 2 ^ 16 - 2 ^ b else 0 :=
  BitVec.toNat_signExtend v

@[simp] theorem toNat_zext16 (b : Byte) : (zext16 b).toNat = b.toNat :=
  BitVec.toNat_setWidth_of_le (by decide)

@[simp] theorem toNat_low8 (w : Word) : (low8 w).toNat = w.toNat % 256 := by
  simp [low8]

@[simp] theorem toNat_high8 (w : Word) : (high8 w).toNat = w.toNat / 256 := by
  have hw : w.toNat < 65536 := w.isLt
  simp only [high8, BitVec.extractLsb'_toNat, Nat.shiftRight_eq_div_pow]
  omega

/-- Settles O17: the field fits the word, so only its sign decides; for a negative field `v - 2^b` modulo 2^16 is
`v + (2^16 - 2^b)`, which does not wrap because `v < 2^b`. -/
theorem signExtensionFollowsItsFormula : Obligations.SignExtensionFollowsItsFormula := by
  intro b _ hb v
  have hfield : v.toNat < 2 ^ b := v.isLt
  have hwidth : 2 ^ b ≤ 2 ^ 16 := Nat.pow_le_pow_right (by decide) hb
  rw [toNat_sext, BitVec.toNat_setWidth_of_le hb, BitVec.msb_eq_getLsbD_last]
  split
  · rw [Nat.mod_eq_of_lt] <;> omega
  · rfl

/-- Settles O18: the three values of R8, by their lemmas. -/
theorem bytesOfAWord : Obligations.BytesOfAWord :=
  ⟨toNat_zext16, fun w => ⟨toNat_low8 w, toNat_high8 w⟩⟩

end Sys2Proof.Machine
end

section
/-! The reset values of the registers (R23), and `setcc` by the bits of its value, with its frame (R27). -/

namespace Sys2Proof.Machine

/-- Settles O1: R23 holds for every RESET_PC, so for the default one. -/
theorem registersResetToZero : Obligations.RegistersResetToZero :=
  fun r => resetAt_reg r Config.resetPc

@[simp] theorem condOf_zero : condOf 0 = condZ := rfl

/-- Bit 15 decides the class of a nonzero value. -/
theorem condOf_of_ne_zero {v : Word} (h : v ≠ 0) : condOf v = if v.getLsbD 15 then condN else condP := by
  rw [condOf, if_neg h, BitVec.msb_eq_getLsbD_last]

@[simp] theorem setcc_cond (s : State) (v : Word) : (s.setcc v).cond = condOf v := rfl

/-- The frame of `setcc`: whatever COND is set to next, nothing of `setcc` is left. -/
@[simp] theorem setcc_setCond (s : State) (v c : Word) : (s.setcc v).setCond c = s.setCond c := rfl

@[simp] theorem setCond_cond_self (s : State) : s.setCond s.cond = s := rfl

/-- Settles O19: COND is the value's class, case by case; with COND put back the state is the one before. -/
theorem setccClassifiesTheValue : Obligations.SetccClassifiesTheValue := by
  intro s v
  refine ⟨fun hzero => ?zero, fun hne hbit => ?negative, fun hne hbit => ?positive, ?frame⟩
  case zero => rw [hzero, setcc_cond, condOf_zero]
  case negative => rw [setcc_cond, condOf_of_ne_zero hne, if_pos hbit]
  case positive => rw [setcc_cond, condOf_of_ne_zero hne, if_neg (Bool.eq_false_iff.mp hbit)]
  case frame => rw [setcc_setCond, setCond_cond_self]

end Sys2Proof.Machine
end

section
/-! Effective addresses wrap modulo 2^16 (R54), and `MemWrite` is a plain store (R53). -/

namespace Sys2Proof.Machine

/-- Sign extension keeps the signed value, and so its residue modulo 2^16. -/
theorem toNat_sext_emod {b : Nat} (hb : b ≤ 16) (v : BitVec b) : ((sext v).toNat : Int) % 65536 = v.toInt % 65536 :=
  calc ((sext v).toNat : Int) % 65536
      = (sext v).toInt % 65536 := by rw [BitVec.toInt_eq_toNat_bmod]; exact Int.bmod_emod.symm
    _ = v.toInt % 65536 := by rw [sext, BitVec.toInt_signExtend_of_le hb]

/-- The one form of every effective address: a base and a signed offset, added modulo 2^16. -/
theorem toNat_add_sext {b : Nat} (hb : b ≤ 16) (base : Word) (off : BitVec b) :
    ((base + sext off).toNat : Int) = ((base.toNat : Int) + off.toInt) % 65536 :=
  calc ((base + sext off).toNat : Int)
      = ((base.toNat : Int) + (sext off).toNat) % 65536 := by rw [BitVec.toNat_add]; rfl
    _ = ((base.toNat : Int) + off.toInt) % 65536 := Int.emod_add_cancel_left.mpr (toNat_sext_emod hb off)

/-- Settles O20: each address form is a base plus a sign-extended offset no wider than a word. -/
theorem addressesWrapModuloTheAddressSpace : Obligations.AddressesWrapModuloTheAddressSpace := fun s =>
  ⟨fun off => toNat_add_sext (by decide) s.pc off, fun off => toNat_add_sext (by decide) s.pc off,
    fun base off => toNat_add_sext (by decide) (s.reg base) off⟩

/-- `MemWrite` has no case for a device word: at every address it is the store (R53). -/
@[simp] theorem memWrite_eq_setWord (a v : Word) (s : State) : memWrite a v s = s.setWord a v := rfl

/-- A store changes the stored word and nothing else. -/
theorem storesAt_setWord {s : State} (h : s.mem.wf = true) (a v : Word) : StoresAt a v s (s.setWord a v) := by
  refine ⟨read_write_self h a v, fun b hb => ?_, fun _ _ => rfl, rfl, rfl, rfl, rfl, rfl⟩
  exact read_write_other h v (List.ne_of_not_mem_cons hb)

/-- Settles O21: a write is the store, at KBSR_ADDR and KBDR_ADDR too. -/
theorem memWriteIsAPlainStore : Obligations.MemWriteIsAPlainStore := by
  intro a v s hwf
  rw [memWrite_eq_setWord]
  exact storesAt_setWord hwf a v

end Sys2Proof.Machine
end

section
/-! The opcode of a word is its nibble under the mask 0xF000 (R72, R81): what each row's mask and match say to `decode`. -/

namespace Sys2Proof

/-- The mask 0xF000 keeps the opcode. -/
theorem opcodeField_and_mask (w : Word) : opcodeField (w &&& 0xF000) = opcodeField w := by
  have hones : (0xF000 : Word).extractLsb' layoutOpcode 4 = BitVec.allOnes 4 := by decide
  rw [opcodeField, opcodeField, BitVec.extractLsb'_and, hones, BitVec.and_allOnes]

/-- A word whose masked bits are those of an opcode alone has that opcode. -/
theorem opcodeField_eq_of_masked {w : Word} {op : Nat} (hop : op < 16) (h : w &&& 0xF000 = placeOpcode op) :
    opcodeField w = op := by
  rw [← opcodeField_and_mask, h, opcodeField_placeOpcode op hop]

end Sys2Proof
end

section
/-! ST (R124): its words, and its store. -/

namespace Sys2Proof.Machine

/-- Opcode 3 has no secondary decode: every word of it is ST. -/
theorem decode_of_opcodeField_three {w : Word} (h : opcodeField w = 3) :
    decode w = .ok (.st (regField layoutDr w) (lowField 9 w)) := by
  simp only [decode, h]

/-- ST is the store of SR at the pc-relative address. -/
theorem exec_st (sr : Reg) (off : BitVec 9) (s : State) :
    exec (.st sr off) s = .next (s.setWord (pcRelative9 s off) (s.reg sr)) := rfl

/-- Settles O30: the mask fixes the opcode, and so ST; the state after it is the store, which changes one word. -/
theorem stStoresTheRegister : Obligations.StStoresTheRegister := by
  refine ⟨fun w hmask => ?words, fun sr off s hwf => ⟨_, exec_st sr off s, ?store⟩⟩
  case words => exact decode_of_opcodeField_three (opcodeField_eq_of_masked (by decide) hmask)
  case store => exact storesAt_setWord hwf (pcRelative9 s off) (s.reg sr)

end Sys2Proof.Machine
end

section
/-! BR (R150): its words, and its jump when the mask meets COND. -/

namespace Sys2Proof.Machine

/-- Opcode 0 has no secondary decode: every word of it is BR. -/
theorem decode_of_opcodeField_zero {w : Word} (h : opcodeField w = 0) :
    decode w = .ok (.br (w.getLsbD layoutN) (w.getLsbD layoutZ) (w.getLsbD layoutP) (lowField 9 w)) := by
  simp only [decode, h]

/-- BR whose mask meets COND is the jump to the pc-relative address. -/
theorem exec_br_of_meets {n z p : Bool} {s : State} (h : branchMask n z p &&& s.cond ≠ 0) (off : BitVec 9) :
    exec (.br n z p off) s = .next (s.setPc (pcRelative9 s off)) :=
  congrArg Host.Outcome.next (if_pos h)

/-- BR whose mask misses COND leaves the state as it is. -/
theorem exec_br_of_misses {n z p : Bool} {s : State} (h : ¬ branchMask n z p &&& s.cond ≠ 0) (off : BitVec 9) :
    exec (.br n z p off) s = .next s :=
  congrArg Host.Outcome.next (if_neg h)

/-- A write of pc changes nothing else. -/
theorem jumpsTo_setPc (target : Word) (s : State) : JumpsTo target [] s (s.setPc target) :=
  ⟨setPc_pc s target, fun r _ => setPc_reg s r target, rfl, fun _ _ => rfl, rfl, rfl, rfl⟩

/-- Settles O33: the mask 0xF000 fixes the opcode, and so BR; the flag-by-flag test is `branchMask_meets`, and either
outcome of it is the state after BR. -/
theorem brBranchesOnTheMask : Obligations.BrBranchesOnTheMask := by
  refine ⟨fun w hmask => ?words, fun n z p off s => ⟨fun hmeets => ?taken, fun hmisses => ?notTaken⟩⟩
  case words => exact decode_of_opcodeField_zero (opcodeField_eq_of_masked (by decide) hmask)
  case taken =>
    exact ⟨_, exec_br_of_meets ((branchMask_meets n z p s.cond).mpr hmeets) off, jumpsTo_setPc (pcRelative9 s off) s⟩
  case notTaken => exact exec_br_of_misses (mt (branchMask_meets n z p s.cond).mp hmisses) off

end Sys2Proof.Machine
end

section
/-! JSR (R152): its words, by opcode and long flag, and its link and jump. -/

namespace Sys2Proof.Machine

/-- Opcode 4 with the long flag set is JSR. -/
theorem decode_of_opcodeField_four_long {w : Word} (h : opcodeField w = 4) (hlong : w.getLsbD layoutLongFlag = true) :
    decode w = .ok (.jsr (lowField 11 w)) := by
  simp only [decode, h, hlong, if_true]

/-- JSR's mask 0xF800 holds the opcode's mask, and so JSR's match the opcode. -/
theorem opcodeField_of_jsr_word {w : Word} (h : w &&& 0xF800 = 0x4800) : opcodeField w = 4 := by
  apply opcodeField_eq_of_masked (by decide)
  calc w &&& 0xF000
      = (w &&& 0xF800) &&& 0xF000 := by rw [BitVec.and_assoc]; rfl
    _ = placeOpcode 4 := by rw [h]; rfl

/-- JSR's mask keeps bit 11, which JSR's match sets. -/
theorem longFlag_of_jsr_word {w : Word} (h : w &&& 0xF800 = 0x4800) : w.getLsbD layoutLongFlag = true := by
  have hbit : (w &&& 0xF800).getLsbD layoutLongFlag = true := by rw [h]; rfl
  rw [BitVec.getLsbD_and, Bool.and_eq_true] at hbit
  exact hbit.1

/-- JSR is the link and then the jump to the pc-relative address. -/
theorem exec_jsr (off : BitVec 11) (s : State) :
    exec (.jsr off) s = .next ((linkPc s).setPc (pcRelative11 s off)) := rfl

/-- A link and a write of pc change R7 and pc, and nothing else. -/
theorem jumpsTo_linkPc_setPc (target : Word) (s : State) : JumpsTo target [7] s ((linkPc s).setPc target) := by
  refine ⟨setPc_pc _ target, fun r hr => ?_, rfl, fun _ _ => rfl, rfl, rfl, rfl⟩
  rw [setPc_reg, linkPc]
  exact setReg_reg_other s linkReg r s.pc (List.ne_of_not_mem_cons hr)

/-- Settles O36: the mask 0xF800 fixes the opcode and the long flag, and so JSR; R7 is written with the incremented pc,
and the jump after it leaves R7 alone. -/
theorem jsrLinksAndJumps : Obligations.JsrLinksAndJumps := by
  refine ⟨fun w hmask => ?words, fun off s => ⟨_, exec_jsr off s, ?link, ?jump⟩⟩
  case words => exact decode_of_opcodeField_four_long (opcodeField_of_jsr_word hmask) (longFlag_of_jsr_word hmask)
  case link => exact setReg_reg_self s linkReg s.pc
  case jump => exact jumpsTo_linkPc_setPc (pcRelative11 s off) s

end Sys2Proof.Machine
end

section
/-! RTI and RES (R154, R155): their words, and their empty effect. -/

namespace Sys2Proof.Machine

/-- Opcode 8 has no fields: every word of it is RTI. -/
theorem decode_of_opcodeField_eight {w : Word} (h : opcodeField w = 8) : decode w = .ok .rti := by
  simp only [decode, h]

/-- Opcode 13 has no fields: every word of it is RES. -/
theorem decode_of_opcodeField_thirteen {w : Word} (h : opcodeField w = 13) : decode w = .ok .res := by
  simp only [decode, h]

theorem exec_rti (s : State) : exec .rti s = .next s := rfl

theorem exec_res (s : State) : exec .res s = .next s := rfl

/-- Settles O38: the mask 0xF000 fixes each opcode, and so its instruction; either answers the state it was given. -/
theorem rtiAndResAreNoOps : Obligations.RtiAndResAreNoOps := by
  refine ⟨fun w hmask => ?rtiWords, fun w hmask => ?resWords, fun s => ⟨exec_rti s, exec_res s⟩⟩
  case rtiWords => exact decode_of_opcodeField_eight (opcodeField_eq_of_masked (by decide) hmask)
  case resWords => exact decode_of_opcodeField_thirteen (opcodeField_eq_of_masked (by decide) hmask)

end Sys2Proof.Machine
end

section
/-! The words of the opcode table: what a row's mask and match say of a word's opcode, flags and low field (R72, R82),
the decoder's answer for each opcode, and the fields that an encoded word reads back as. -/

namespace Sys2Proof

/-! ### A word under a row's mask -/

/-- A mask that covers the opcode's bits leaves the opcode to the match. -/
theorem opcodeField_of_mask {w mask m : Word} {op : Nat} (hmask : mask &&& 0xF000 = 0xF000) (hop : opcodeField m = op)
    (h : w &&& mask = m) : opcodeField w = op :=
  calc opcodeField w
      = opcodeField (w &&& (mask &&& 0xF000)) := by rw [hmask, opcodeField_and_mask]
    _ = opcodeField (w &&& mask &&& 0xF000) := by rw [BitVec.and_assoc]
    _ = op := by rw [h, opcodeField_and_mask, hop]

/-- A bit that the mask covers is the match's. -/
theorem getLsbD_of_mask {w mask m : Word} {k : Nat} {b : Bool} (hmask : mask.getLsbD k = true) (hm : m.getLsbD k = b)
    (h : w &&& mask = m) : w.getLsbD k = b := by
  rw [← hm, ← h, BitVec.getLsbD_and, hmask, Bool.and_true]

/-- A low field that the mask covers is the match's. -/
theorem lowField_of_mask {w mask m : Word} {n : Nat} (hmask : lowField n mask = BitVec.allOnes n)
    (h : w &&& mask = m) : lowField n w = lowField n m := by
  rw [← h, lowField, lowField, BitVec.extractLsb'_and, show mask.extractLsb' 0 n = BitVec.allOnes n from hmask,
    BitVec.and_allOnes]

/-! ### The decoder, opcode by opcode (R72, R81, R82) -/

section
variable {w : Word}

theorem decode_add_reg (h : opcodeField w = 1) (hflag : w.getLsbD layoutImmFlag = false) :
    decode w = .ok (.addReg (regField layoutDr w) (regField layoutSr1 w) (regField layoutSr2 w)) := by
  simp [decode, h, hflag]

theorem decode_add_imm (h : opcodeField w = 1) (hflag : w.getLsbD layoutImmFlag = true) :
    decode w = .ok (.addImm (regField layoutDr w) (regField layoutSr1 w) (lowField 5 w)) := by
  simp [decode, h, hflag]

theorem decode_ld (h : opcodeField w = 2) : decode w = .ok (.ld (regField layoutDr w) (lowField 9 w)) := by
  simp only [decode, h]

theorem decode_jsrr (h : opcodeField w = 4) (hflag : w.getLsbD layoutLongFlag = false) :
    decode w = .ok (.jsrr (regField layoutSr1 w)) := by
  simp [decode, h, hflag]

theorem decode_and_reg (h : opcodeField w = 5) (hflag : w.getLsbD layoutImmFlag = false) :
    decode w = .ok (.andReg (regField layoutDr w) (regField layoutSr1 w) (regField layoutSr2 w)) := by
  simp [decode, h, hflag]

theorem decode_and_imm (h : opcodeField w = 5) (hflag : w.getLsbD layoutImmFlag = true) :
    decode w = .ok (.andImm (regField layoutDr w) (regField layoutSr1 w) (lowField 5 w)) := by
  simp [decode, h, hflag]

theorem decode_ldr (h : opcodeField w = 6) :
    decode w = .ok (.ldr (regField layoutDr w) (regField layoutSr1 w) (lowField 6 w)) := by
  simp only [decode, h]

theorem decode_str (h : opcodeField w = 7) :
    decode w = .ok (.str (regField layoutDr w) (regField layoutSr1 w) (lowField 6 w)) := by
  simp only [decode, h]

theorem decode_not (h : opcodeField w = 9) :
    decode w = .ok (.notReg (regField layoutDr w) (regField layoutSr1 w)) := by
  simp only [decode, h]

theorem decode_ldi (h : opcodeField w = 10) : decode w = .ok (.ldi (regField layoutDr w) (lowField 9 w)) := by
  simp only [decode, h]

theorem decode_sti (h : opcodeField w = 11) : decode w = .ok (.sti (regField layoutDr w) (lowField 9 w)) := by
  simp only [decode, h]

theorem decode_jmp (h : opcodeField w = 12) : decode w = .ok (decodeJmp (regField layoutSr1 w)) := by
  simp only [decode, h]

theorem decode_lea (h : opcodeField w = 14) : decode w = .ok (.lea (regField layoutDr w) (lowField 9 w)) := by
  simp only [decode, h]

theorem decode_trap (h : opcodeField w = 15) : decode w = .ok (decodeTrap (lowField 8 w)) := by
  simp only [decode, h]

end

/-! ### The secondary decodes of JMP and TRAP (R82) -/

@[simp] theorem decodeJmp_seven : decodeJmp 7 = .ret := rfl

theorem decodeJmp_of_ne {base : Reg} (h : base ≠ 7) : decodeJmp base = .jmp base := if_neg h

theorem decodeJmp_wf (base : Reg) : (decodeJmp base).wf = true := by
  by_cases h : base = 7
  · rw [h]; rfl
  · simpa [decodeJmp_of_ne h, Instr.wf] using h

theorem isServiceVector_eq_false_iff (v : Byte) :
    isServiceVector v = false ↔ ¬ (0x20 ≤ v.toNat ∧ v.toNat ≤ 0x25) := by
  simp [isServiceVector]

/-- A vector outside 0x20 to 0x25 names no service. -/
theorem decodeTrap_of_not_service {v : Byte} (h : isServiceVector v = false) : decodeTrap v = .trapInvalid v := by
  rw [isServiceVector_eq_false_iff] at h
  unfold decodeTrap
  split
  case h_7 => rfl
  all_goals omega

theorem decodeTrap_wf (v : Byte) : (decodeTrap v).wf = true := by
  cases h : isServiceVector v with
  | false => rw [decodeTrap_of_not_service h, Instr.wf, h]; rfl
  | true =>
    simp only [isServiceVector, Bool.and_eq_true, decide_eq_true_eq] at h
    unfold decodeTrap
    split
    case h_7 => simp only [imp_false] at *; omega
    all_goals rfl

/-! ### The fields of an encoded word

`encode` places its fields one after the other; a field of the word so far is the one placed last, or is still the one
before, or is still zero. -/

@[simp] theorem layoutDr_eq : layoutDr = 9 := rfl
@[simp] theorem layoutSr1_eq : layoutSr1 = 6 := rfl
@[simp] theorem layoutSr2_eq : layoutSr2 = 0 := rfl
@[simp] theorem layoutImmFlag_eq : layoutImmFlag = 5 := rfl
@[simp] theorem layoutLongFlag_eq : layoutLongFlag = 11 := rfl
@[simp] theorem layoutN_eq : layoutN = 11 := rfl
@[simp] theorem layoutZ_eq : layoutZ = 10 := rfl
@[simp] theorem layoutP_eq : layoutP = 9 := rfl

section
variable {n k lo lo' i op : Nat} {w : Word} {v : BitVec n} {r : Reg}

@[simp] theorem regField_placeOpcode (h : lo + 3 ≤ 12) : regField lo (placeOpcode op) = 0 := by
  rw [regField, placeOpcode, extract_place_other lo 3 layoutOpcode _ (.inr h)]
  rfl

@[simp] theorem regField_or_place (h : lo' + n ≤ lo ∨ lo + 3 ≤ lo') :
    regField lo (w ||| place lo' v) = regField lo w := by
  rw [regField, regField, extract_or, extract_place_other lo 3 lo' v h]
  exact congrArg BitVec.toFin BitVec.or_zero

@[simp] theorem regField_or_placeReg (h : lo' + 3 ≤ lo ∨ lo + 3 ≤ lo') :
    regField lo (w ||| placeReg lo' r) = regField lo w := regField_or_place h

@[simp] theorem regField_or_placeReg_self (hw : regField lo w = 0) (h : lo + 3 ≤ 16) :
    regField lo (w ||| placeReg lo r) = r := by
  have hzero : w.extractLsb' lo 3 = 0 := BitVec.toFin_inj.mp hw
  rw [regField, extract_or, hzero]
  exact (congrArg BitVec.toFin BitVec.zero_or).trans (regField_ofFin lo r h)

@[simp] theorem lowField_placeOpcode (h : n ≤ 12) : lowField n (placeOpcode op) = 0 :=
  extract_place_other 0 n layoutOpcode _ (.inr ((Nat.zero_add n).trans_le h))

@[simp] theorem lowField_or_place (h : k ≤ lo') : lowField k (w ||| place lo' v) = lowField k w := by
  rw [lowField, lowField, extract_or, extract_place_other 0 k lo' v (.inr (by omega))]
  exact BitVec.or_zero

@[simp] theorem lowField_or_placeReg (h : k ≤ lo') : lowField k (w ||| placeReg lo' r) = lowField k w :=
  lowField_or_place h

@[simp] theorem lowField_or_place_self (hw : lowField n w = 0) (h : n ≤ 16) : lowField n (w ||| place 0 v) = v := by
  rw [lowField, extract_or, show w.extractLsb' 0 n = 0 from hw, extract_place_self 0 v (by omega)]
  exact BitVec.zero_or

/-- A placed field has no bit outside its own. -/
@[simp] theorem getElem_place_other (hi : i < 16) (h : i < lo ∨ lo + n ≤ i) : (place lo v)[i] = false := by
  rw [getElem_place lo i v hi]
  rcases h with h | h
  · simp [h]
  · simp [BitVec.getLsbD_of_ge v (i - lo) (by omega)]

@[simp] theorem getElem_placeReg_other (hi : i < 16) (h : i < lo ∨ lo + 3 ≤ i) : (placeReg lo r)[i] = false :=
  getElem_place_other hi h

@[simp] theorem getElem_placeOpcode (hi : i < 12) : (placeOpcode op)[i] = false :=
  getElem_place_other (by omega) (.inl hi)

/-- A one-bit field is its bit. -/
@[simp] theorem getElem_place_self {b : BitVec 1} (hi : i < 16) : (place i b)[i] = b[0] := by
  simp [getElem_place]

end

/-- Decoding undoes encoding: the opcode picks the arm, and each field the arm reads is the one that was placed. -/
theorem decode_encode (i : Instr) (hwf : i.wf = true) : decode (encode i) = .ok i := by
  cases i with
  | br n z p off => rw [Machine.decode_of_opcodeField_zero (Laws.OpcodeNibble.br n z p off)]; simp [encode]
  | addReg dr sr1 sr2 => rw [decode_add_reg (Laws.OpcodeNibble.addReg dr sr1 sr2)] <;> simp [encode]
  | addImm dr sr1 imm => rw [decode_add_imm (Laws.OpcodeNibble.addImm dr sr1 imm)] <;> simp [encode]
  | ld dr off => rw [decode_ld (Laws.OpcodeNibble.ld dr off)]; simp [encode]
  | st sr off => rw [Machine.decode_of_opcodeField_three (Laws.OpcodeNibble.st sr off)]; simp [encode]
  | jsr off => rw [Machine.decode_of_opcodeField_four_long (Laws.OpcodeNibble.jsr off)] <;> simp [encode]
  | jsrr base => rw [decode_jsrr (Laws.OpcodeNibble.jsrr base)] <;> simp [encode]
  | andReg dr sr1 sr2 => rw [decode_and_reg (Laws.OpcodeNibble.andReg dr sr1 sr2)] <;> simp [encode]
  | andImm dr sr1 imm => rw [decode_and_imm (Laws.OpcodeNibble.andImm dr sr1 imm)] <;> simp [encode]
  | ldr dr base off => rw [decode_ldr (Laws.OpcodeNibble.ldr dr base off)]; simp [encode]
  | str sr base off => rw [decode_str (Laws.OpcodeNibble.str sr base off)]; simp [encode]
  | rti => exact Machine.decode_of_opcodeField_eight Laws.OpcodeNibble.rti
  | notReg dr sr => rw [decode_not (Laws.OpcodeNibble.notReg dr sr)]; simp [encode]
  | ldi dr off => rw [decode_ldi (Laws.OpcodeNibble.ldi dr off)]; simp [encode]
  | sti sr off => rw [decode_sti (Laws.OpcodeNibble.sti sr off)]; simp [encode]
  | jmp base =>
    have hne : base ≠ 7 := by simpa [Instr.wf] using hwf
    rw [decode_jmp (Laws.OpcodeNibble.jmp base)]
    simp [encode, decodeJmp_of_ne hne]
  | ret => rw [decode_jmp Laws.OpcodeNibble.ret]; simp [encode]
  | res => exact Machine.decode_of_opcodeField_thirteen Laws.OpcodeNibble.res
  | lea dr off => rw [decode_lea (Laws.OpcodeNibble.lea dr off)]; simp [encode]
  | trapGetc | trapOut | trapPuts | trapIn | trapPutsp | trapHalt => decide
  | trapInvalid v =>
    have hv : isServiceVector v = false := by simpa [Instr.wf] using hwf
    rw [decode_trap (Laws.OpcodeNibble.trapInvalid v)]
    simp [encode, decodeTrap_of_not_service hv]

/-- Settles O11, by `decode_encode`. -/
theorem decodeOfEncodeIsTheInstruction : Obligations.DecodeOfEncodeIsTheInstruction := decode_encode

end Sys2Proof
end

section
/-! The decoder over all words (R72, R82, R84): no word is refused, and the rows of the opcode table. -/

namespace Sys2Proof

/-- The opcode is four bits, so one of the sixteen arms answers, each with a well-formed instruction. -/
theorem decode_total (w : Word) : ∃ i, decode w = .ok i ∧ i.wf = true := by
  have hop : opcodeField w < 16 := BitVec.isLt (w.extractLsb' layoutOpcode 4)
  unfold decode
  split
  case h_2 | h_5 | h_6 => exact ⟨_, rfl, by split <;> rfl⟩
  case h_13 => exact ⟨_, rfl, decodeJmp_wf _⟩
  case h_16 => exact ⟨_, rfl, decodeTrap_wf _⟩
  case h_17 => simp only [imp_false] at *; omega
  all_goals exact ⟨_, rfl, rfl⟩

/-- Settles O12, by `decode_total`. -/
theorem everyWordIsAWellFormedInstruction : Obligations.EveryWordIsAWellFormedInstruction := decode_total

/-- Settles O13: the ten words, each decoded by evaluation. -/
theorem sampleWordsDecodeAsTheVectorsSay : Obligations.SampleWordsDecodeAsTheVectorsSay := by
  unfold Obligations.SampleWordsDecodeAsTheVectorsSay
  decide

/-- Settles O14: a row's mask covers the opcode, and bit 5 or 11 where the opcode has two rows; the decoder's fields are
the row's bits. -/
theorem decodeFollowsTheOpcodeTable : Obligations.DecodeFollowsTheOpcodeTable := fun w =>
  ⟨fun h => decode_add_reg (opcodeField_of_mask (by decide) rfl h) (getLsbD_of_mask rfl rfl h),
    fun h => decode_add_imm (opcodeField_of_mask (by decide) rfl h) (getLsbD_of_mask rfl rfl h),
    fun h => decode_ld (opcodeField_of_mask (by decide) rfl h),
    fun h => decode_jsrr (opcodeField_of_mask (by decide) rfl h) (getLsbD_of_mask rfl rfl h),
    fun h => decode_and_reg (opcodeField_of_mask (by decide) rfl h) (getLsbD_of_mask rfl rfl h),
    fun h => decode_and_imm (opcodeField_of_mask (by decide) rfl h) (getLsbD_of_mask rfl rfl h),
    fun h => decode_ldr (opcodeField_of_mask (by decide) rfl h),
    fun h => decode_str (opcodeField_of_mask (by decide) rfl h),
    fun h => decode_not (opcodeField_of_mask (by decide) rfl h),
    fun h => decode_ldi (opcodeField_of_mask (by decide) rfl h),
    fun h => decode_sti (opcodeField_of_mask (by decide) rfl h),
    fun h => decode_lea (opcodeField_of_mask (by decide) rfl h)⟩

/-- A word under the mask 0xF0FF is TRAP with the match's vector, whatever bits [11:8] hold. -/
theorem decode_of_trap_mask {w m : Word} (hop : opcodeField m = 15) (h : w &&& 0xF0FF = m) :
    decode w = .ok (decodeTrap (lowField 8 m)) := by
  rw [decode_trap (opcodeField_of_mask (by decide) hop h), lowField_of_mask (by decide) h]

/-- Settles O15: the mask 0xF0FF fixes opcode and vector; any other vector of a TRAP word names no service. -/
theorem trapDecodesByItsLowByte : Obligations.TrapDecodesByItsLowByte := by
  intro w
  refine ⟨decode_of_trap_mask rfl, decode_of_trap_mask rfl, decode_of_trap_mask rfl, decode_of_trap_mask rfl,
    decode_of_trap_mask rfl, decode_of_trap_mask rfl, fun hmask hother => ?invalid⟩
  case invalid =>
    rw [decode_trap (opcodeField_eq_of_masked (by decide) hmask)]
    exact congrArg _ (decodeTrap_of_not_service ((isServiceVector_eq_false_iff _).mpr hother))

/-- Opcode 12 under its mask: JMP, or RET when bits 8:6 are 7. -/
theorem decode_of_jmp_mask {w : Word} (h : w &&& 0xF000 = 0xC000) :
    decode w = .ok (if w.extractLsb 8 6 = 7 then .ret else .jmp (w.extractLsb 8 6).toFin) := by
  rw [decode_jmp (opcodeField_eq_of_masked (by decide) h), decodeJmp]
  exact congrArg _ (ite_congr (propext BitVec.toFin_inj) (fun _ => rfl) (fun _ => rfl))

end Sys2Proof
end

section
/-! Relations that every operation of the machine keeps. A relation between states that the operations cannot tell apart
and that each of them keeps is kept by a whole step; the rules that no step reads the output back (R213), that only BR
reads COND (R29), and that input is consumed in order (R35, R210) are three such relations. -/

namespace Sys2Proof.Machine

/-- What a relation needs so that a whole step keeps it: related states agree on all that an operation looks at (COND
and the streams aside), and every primitive update keeps the relation. -/
structure StepCongruence (R : State → State → Prop) : Prop where
  regs {s t : State} : R s t → t.regs = s.regs
  pc {s t : State} : R s t → t.pc = s.pc
  mem {s t : State} : R s t → t.mem = s.mem
  runState {s t : State} : R s t → t.runState = s.runState
  service {s t : State} : R s t → t.service = s.service
  pollAnswer {s t : State} : R s t → t.ports.pollAnswer = s.ports.pollAnswer
  readAnswer {s t : State} : R s t → t.ports.readAnswer = s.ports.readAnswer
  outChoice {s t : State} : R s t → t.ports.outChoice = s.ports.outChoice
  setReg {s t : State} (r : Reg) (v : Word) : R s t → R (s.setReg r v) (t.setReg r v)
  setcc {s t : State} (v : Word) : R s t → R (s.setcc v) (t.setcc v)
  setPc {s t : State} (v : Word) : R s t → R (s.setPc v) (t.setPc v)
  setWord {s t : State} (a v : Word) : R s t → R (s.setWord a v) (t.setWord a v)
  setService {s t : State} (v : Service) : R s t → R (s.setService v) (t.setService v)
  halt {s t : State} : R s t → R s.halt t.halt
  raise {s t : State} (f : FaultReason) : R s t → R (s.raise f) (t.raise f)
  afterPoll {s t : State} : R s t → R (s.setPorts s.ports.afterPoll) (t.setPorts t.ports.afterPoll)
  afterRead {s t : State} : R s t → R (s.setPorts s.ports.afterRead) (t.setPorts t.ports.afterRead)
  afterOut {s t : State} : R s t → R (s.setPorts s.ports.afterOut) (t.setPorts t.ports.afterOut)
  append {s t : State} (b : Byte) : R s t → R (s.setPorts (s.ports.append b)) (t.setPorts (t.ports.append b))

/-- Two operations end alike: with one value, or both in a fault, in related states. -/
inductive ResultRel (R : State → State → Prop) {α : Type} : Result α → Result α → Prop where
  | ok {s t : State} (a : α) : R s t → ResultRel R (.ok a s) (.ok a t)
  | raised {s t : State} : R s t → ResultRel R (.raised s) (.raised t)

/-- Two instructions or steps both answer a next state, and these are related. -/
def NextRel (R : State → State → Prop) (x y : Host.Outcome State Fault Refusal) : Prop :=
  ∃ s t, x = .next s ∧ y = .next t ∧ R s t

theorem ResultRel.andThen {R : State → State → Prop} {α : Type} {x y : Result α} {k : α → State → State}
    (h : ResultRel R x y) (hk : ∀ a s t, R s t → R (k a s) (k a t)) : R (x.andThen k) (y.andThen k) := by
  cases h with
  | ok a hst => exact hk a _ _ hst
  | raised hst => exact hst

theorem ResultRel.bind {R : State → State → Prop} {α β : Type} {x y : Result α} {k : α → State → Result β}
    (h : ResultRel R x y) (hk : ∀ a s t, R s t → ResultRel R (k a s) (k a t)) :
    ResultRel R (x.bind k) (y.bind k) := by
  cases h with
  | ok a hst => exact hk a _ _ hst
  | raised hst => exact .raised hst

namespace StepCongruence

variable {R : State → State → Prop} (H : StepCongruence R) {s t : State} (h : R s t)
include H h

/-! ### The shared operations -/

theorem reg (r : Reg) : t.reg r = s.reg r := by rw [State.reg, State.reg, H.regs h]

theorem setDest (dr : Reg) (v : Word) : R (s.setDest dr v) (t.setDest dr v) := H.setcc v (H.setReg dr v h)

theorem setInput (v : Word) : R (s.setInput v) (t.setInput v) := by
  unfold State.setInput
  split
  · exact H.setDest h 0 v
  · exact H.setReg 0 v h

theorem pollKeyboard : ResultRel R (pollKeyboard s) (pollKeyboard t) := by
  unfold Machine.pollKeyboard
  rw [H.pollAnswer h]
  cases s.ports.pollAnswer with
  | avail b => exact .ok () (H.setWord _ _ (H.setWord _ _ (H.afterPoll h)))
  | notAvail => exact .ok () (H.setWord _ _ (H.afterPoll h))
  | error => exact .raised (H.raise _ (H.afterPoll h))

theorem memRead (a : Word) : ResultRel R (memRead a s) (memRead a t) := by
  unfold Machine.memRead
  split
  · refine (H.pollKeyboard h).bind fun _ s' t' h' => ?_
    rw [H.mem h']
    exact .ok _ h'
  · rw [H.mem h]
    exact .ok _ h

theorem outByte (b : Byte) : ResultRel R (outByte b s) (outByte b t) := by
  unfold Machine.outByte
  rw [H.outChoice h]
  cases s.ports.outChoice with
  | accept => exact .ok () (H.append b (H.afterOut h))
  | error => exact .raised (H.raise _ (H.afterOut h))

theorem outBytes (bs : List Byte) : ResultRel R (outBytes bs s) (outBytes bs t) := by
  induction bs generalizing s t with
  | nil => exact .ok () h
  | cons b bs ih => exact (H.outByte h b).bind fun _ _ _ h' => ih h'

theorem fetch : ResultRel R (fetch s) (fetch t) := by
  unfold Machine.fetch
  rw [H.pc h]
  refine (H.memRead h _).bind fun _ s' t' h' => ?_
  rw [H.pc h']
  exact .ok _ (H.setPc _ h')

theorem loadFrom (dr : Reg) (ea : Word) : R (loadFrom dr ea s) (loadFrom dr ea t) :=
  (H.memRead h ea).andThen fun w _ _ h' => H.setDest h' dr w

theorem trapEnter : R (trapEnter s) (trapEnter t) := by
  unfold Machine.trapEnter
  rw [H.pc h]
  exact H.setReg _ _ h

theorem jumpTo (base : Reg) : R (jumpTo base s) (jumpTo base t) := by
  unfold Machine.jumpTo
  rw [H.reg h]
  exact H.setPc _ h

theorem trapReturn : R (trapReturn s) (trapReturn t) := H.setService .idle h

/-! ### The services -/

theorem awaitByte (waiting : Service) {deliver : Byte → State → State}
    (hdeliver : ∀ b s t, R s t → R (deliver b s) (deliver b t)) :
    R (awaitByte waiting deliver s) (awaitByte waiting deliver t) := by
  unfold Machine.awaitByte
  rw [H.readAnswer h]
  have hread := H.trapReturn (H.afterRead h)
  cases s.ports.readAnswer with
  | byte b => exact hdeliver b _ _ hread
  | eof => exact H.raise _ hread
  | error => exact H.raise _ hread
  | wait => exact H.setService _ (H.afterRead h)

theorem getcService : R (getcService s) (getcService t) :=
  H.awaitByte h _ fun b _ _ h' => H.setInput h' (zext16 b)

theorem inService : R (inService s) (inService t) :=
  H.awaitByte h _ fun b _ _ h' => (H.outByte h' b).andThen fun _ _ _ h'' => H.setInput h'' (zext16 b)

theorem putWord (w : Word) : ResultRel R (putWord w s) (putWord w t) := H.outByte h (low8 w)

theorem putPackedWord (w : Word) : ResultRel R (putPackedWord w s) (putPackedWord w t) := by
  rw [putPackedWord_eq, putPackedWord_eq]
  exact H.outBytes h (packedBytes w)

theorem stringLoop {put : Word → State → Result Unit} (unfinished : Word → Service)
    (hput : ∀ w s t, R s t → ResultRel R (put w s) (put w t)) (fuel : Nat) (a : Word) :
    R (stringLoop put unfinished fuel a s) (stringLoop put unfinished fuel a t) := by
  induction fuel generalizing a s t with
  | zero => exact H.setService _ h
  | succ n ih =>
    refine (H.memRead h a).andThen fun w s' t' h' => ?_
    split
    · exact h'
    · exact (hput w s' t' h').andThen fun _ _ _ h'' => ih h'' (a + 1)

theorem putsService (a : Word) : R (putsService a s) (putsService a t) :=
  H.stringLoop h _ (fun w _ _ h' => H.putWord h' w) stringLap a

theorem putspService (a : Word) : R (putspService a s) (putspService a t) :=
  H.stringLoop h _ (fun w _ _ h' => H.putPackedWord h' w) stringLap a

theorem resumeService : R (resumeService s) (resumeService t) := by
  unfold Machine.resumeService
  rw [H.service h]
  cases s.service with
  | idle => exact h
  | getc => exact H.getcService h
  | inRead => exact H.inService h
  | puts a => exact H.putsService (H.trapReturn h) a
  | putsp a => exact H.putspService (H.trapReturn h) a

/-! ### The instructions and the step -/

/-- BR is the one instruction that looks at COND. -/
theorem execBr (hcond : t.cond = s.cond) (n z p : Bool) (off : BitVec 9) :
    NextRel R (execBr n z p off s) (execBr n z p off t) := by
  refine ⟨_, _, rfl, rfl, ?_⟩
  rw [hcond]
  split
  · rw [pcRelative9, pcRelative9, H.pc h]
    exact H.setPc _ h
  · exact h

/-- Every instruction keeps the relation; BR does where the states agree on COND. -/
theorem exec (i : Instr) (hbr : ∀ n z p off, i = .br n z p off → t.cond = s.cond) :
    NextRel R (exec i s) (exec i t) := by
  have hrel9 (off : BitVec 9) : pcRelative9 t off = pcRelative9 s off := congrArg (· + sext off) (H.pc h)
  have hbase (base : Reg) (off : BitVec 6) : baseOffset6 t base off = baseOffset6 s base off :=
    congrArg (· + sext off) (H.reg h base)
  cases i with
  | br n z p off => exact H.execBr h (hbr n z p off rfl) n z p off
  | addReg dr sr1 sr2 => exact ⟨_, _, rfl, rfl, by rw [H.reg h, H.reg h]; exact H.setDest h dr _⟩
  | addImm dr sr1 imm => exact ⟨_, _, rfl, rfl, by rw [H.reg h]; exact H.setDest h dr _⟩
  | andReg dr sr1 sr2 => exact ⟨_, _, rfl, rfl, by rw [H.reg h, H.reg h]; exact H.setDest h dr _⟩
  | andImm dr sr1 imm => exact ⟨_, _, rfl, rfl, by rw [H.reg h]; exact H.setDest h dr _⟩
  | notReg dr sr => exact ⟨_, _, rfl, rfl, by rw [H.reg h]; exact H.setDest h dr _⟩
  | lea dr off => exact ⟨_, _, rfl, rfl, by rw [hrel9]; exact H.setDest h dr _⟩
  | ld dr off => exact ⟨_, _, rfl, rfl, by rw [hrel9]; exact H.loadFrom h dr _⟩
  | ldr dr base off => exact ⟨_, _, rfl, rfl, by rw [hbase]; exact H.loadFrom h dr _⟩
  | ldi dr off =>
    refine ⟨_, _, rfl, rfl, ?_⟩
    rw [indirect9, indirect9, hrel9]
    exact (H.memRead h _).andThen fun ea _ _ h' => H.loadFrom h' dr ea
  | st sr off => exact ⟨_, _, rfl, rfl, by rw [hrel9, H.reg h]; exact H.setWord _ _ h⟩
  | str sr base off => exact ⟨_, _, rfl, rfl, by rw [hbase, H.reg h]; exact H.setWord _ _ h⟩
  | sti sr off =>
    refine ⟨_, _, rfl, rfl, ?_⟩
    rw [indirect9, indirect9, hrel9]
    exact (H.memRead h _).andThen fun ea _ _ h' => by rw [H.reg h']; exact H.setWord _ _ h'
  | jmp base => exact ⟨_, _, rfl, rfl, H.jumpTo h base⟩
  | ret => exact ⟨_, _, rfl, rfl, H.jumpTo h linkReg⟩
  | jsr off =>
    refine ⟨_, _, rfl, rfl, ?_⟩
    rw [pcRelative11, pcRelative11, H.pc h]
    exact H.setPc _ (H.trapEnter h)
  | jsrr base => exact ⟨_, _, rfl, rfl, H.jumpTo (H.trapEnter h) base⟩
  | rti => exact ⟨_, _, rfl, rfl, h⟩
  | res => exact ⟨_, _, rfl, rfl, h⟩
  | trapGetc => exact ⟨_, _, rfl, rfl, H.getcService (H.trapEnter h)⟩
  | trapOut =>
    refine ⟨_, _, rfl, rfl, ?_⟩
    rw [H.reg (H.trapEnter h)]
    exact (H.outByte (H.trapEnter h) _).andThen fun _ _ _ h' => h'
  | trapPuts => exact ⟨_, _, rfl, rfl, by rw [H.reg (H.trapEnter h)]; exact H.putsService (H.trapEnter h) _⟩
  | trapIn => exact ⟨_, _, rfl, rfl, (H.outBytes (H.trapEnter h) _).andThen fun _ _ _ h' => H.inService h'⟩
  | trapPutsp => exact ⟨_, _, rfl, rfl, by rw [H.reg (H.trapEnter h)]; exact H.putspService (H.trapEnter h) _⟩
  | trapHalt => exact ⟨_, _, rfl, rfl, (H.outBytes (H.trapEnter h) _).andThen fun _ _ _ h' => H.halt h'⟩
  | trapInvalid v => exact ⟨_, _, rfl, rfl, H.raise _ (H.trapEnter h)⟩

/-- A step keeps a relation whose states agree on COND: the fetch answers one word, every word decodes, and the
instruction keeps the relation. -/
theorem step (hcond : ∀ {s t : State}, R s t → t.cond = s.cond) : NextRel R (step s) (step t) := by
  have hcycle : NextRel R (instructionCycle s) (instructionCycle t) := by
    have hfetch := H.fetch h
    unfold instructionCycle
    generalize Machine.fetch s = x, Machine.fetch t = y at hfetch
    cases hfetch with
    | ok ir h' =>
      obtain ⟨i, hi, -⟩ := decode_total ir
      simp only [dispatchWord, hi]
      exact H.exec h' i fun _ _ _ _ _ => hcond h'
    | raised h' => exact ⟨_, _, rfl, rfl, h'⟩
  unfold Machine.step
  rw [H.runState h, H.service h]
  split
  · split
    · exact hcycle
    all_goals exact ⟨_, _, rfl, rfl, H.resumeService h⟩
  all_goals exact ⟨_, _, rfl, rfl, h⟩

end StepCongruence

end Sys2Proof.Machine
end

section
/-! The relations themselves: a state to itself, with what every update keeps of it (R35, R210); states that differ in
the output written before (R213); and states that differ in COND (R29). -/

namespace Sys2Proof.Machine

/-! ### What every port operation keeps of one run -/

/-- A property of states that every primitive update keeps is such a relation, of a state to itself. -/
theorem congruence_of_invariant {P : State → Prop} (setReg : ∀ s r v, P s → P (s.setReg r v))
    (setcc : ∀ s v, P s → P (s.setcc v)) (setPc : ∀ s v, P s → P (s.setPc v))
    (setWord : ∀ s a v, P s → P (s.setWord a v)) (setService : ∀ s v, P s → P (s.setService v))
    (halt : ∀ s, P s → P s.halt) (raise : ∀ s f, P s → P (s.raise f))
    (afterPoll : ∀ s, P s → P (s.setPorts s.ports.afterPoll)) (afterRead : ∀ s, P s → P (s.setPorts s.ports.afterRead))
    (afterOut : ∀ s, P s → P (s.setPorts s.ports.afterOut))
    (append : ∀ s b, P s → P (s.setPorts (s.ports.append b))) :
    StepCongruence fun s t => t = s ∧ P s where
  regs h := congrArg State.regs h.1
  pc h := congrArg State.pc h.1
  mem h := congrArg State.mem h.1
  runState h := congrArg State.runState h.1
  service h := congrArg State.service h.1
  pollAnswer h := by rw [h.1]
  readAnswer h := by rw [h.1]
  outChoice h := by rw [h.1]
  setReg r v h := ⟨by rw [h.1], setReg _ r v h.2⟩
  setcc v h := ⟨by rw [h.1], setcc _ v h.2⟩
  setPc v h := ⟨by rw [h.1], setPc _ v h.2⟩
  setWord a v h := ⟨by rw [h.1], setWord _ a v h.2⟩
  setService v h := ⟨by rw [h.1], setService _ v h.2⟩
  halt h := ⟨by rw [h.1], halt _ h.2⟩
  raise f h := ⟨by rw [h.1], raise _ f h.2⟩
  afterPoll h := ⟨by rw [h.1], afterPoll _ h.2⟩
  afterRead h := ⟨by rw [h.1], afterRead _ h.2⟩
  afterOut h := ⟨by rw [h.1], afterOut _ h.2⟩
  append b h := ⟨by rw [h.1], append _ b h.2⟩

/-- Every step answers a next state, and that one keeps what every primitive update keeps. -/
theorem step_keeps {P : State → Prop} (H : StepCongruence fun s t => t = s ∧ P s) {s : State} (hs : P s) :
    ∃ t, step s = .next t ∧ P t := by
  obtain ⟨t, -, ht, -, -, hP⟩ := H.step ⟨rfl, hs⟩ fun h => congrArg State.cond h.1
  exact ⟨t, ht, hP⟩

/-- Settles O5: no arm of the step is a fault or a refusal of the host interface, since every word decodes. -/
theorem stepAlwaysAnswersANextState : Obligations.StepAlwaysAnswersANextState := by
  intro s
  have H := congruence_of_invariant (P := fun _ => True) (fun _ _ _ => id) (fun _ _ => id) (fun _ _ => id)
    (fun _ _ _ => id) (fun _ _ => id) (fun _ => id) (fun _ _ => id) (fun _ => id) (fun _ => id) (fun _ => id)
    (fun _ _ => id)
  obtain ⟨t, ht, -⟩ := step_keeps (P := fun _ => True) H trivial
  exact ⟨t, ht⟩

/-- The stream of `q` after some bytes were consumed in order, and none given back (R35). -/
def Ports.ConsumedFrom (q p : Ports) : Prop :=
  ∃ k, p.inputTaken = q.inputTaken + k ∧ p.inputEnds = q.inputEnds ∧ p.input = q.input.drop k

theorem Ports.ConsumedFrom.same {q p p' : Ports} (h : q.ConsumedFrom p)
    (hsame : p'.input = p.input ∧ p'.inputEnds = p.inputEnds ∧ p'.inputTaken = p.inputTaken) : q.ConsumedFrom p' := by
  obtain ⟨k, htaken, hends, hinput⟩ := h
  obtain ⟨hi, he, ht⟩ := hsame
  exact ⟨k, ht.trans htaken, he.trans hends, hi.trans hinput⟩

theorem Ports.ConsumedFrom.next {q p p' : Ports} (h : q.ConsumedFrom p)
    (hnext : p'.input = p.input.tail ∧ p'.inputEnds = p.inputEnds ∧ p'.inputTaken = p.inputTaken + 1) :
    q.ConsumedFrom p' := by
  obtain ⟨k, htaken, hends, hinput⟩ := h
  obtain ⟨hi, he, ht⟩ := hnext
  exact ⟨k + 1, by omega, he.trans hends, by rw [hi, hinput, List.tail_drop]⟩

theorem consumedFrom_afterPoll {q p : Ports} (h : q.ConsumedFrom p) : q.ConsumedFrom p.afterPoll := by
  by_cases hb : ∃ b, p.pollAnswer = .avail b
  · exact h.next (afterPoll_avail hb.choose_spec)
  · exact h.same (afterPoll_none (not_exists.mp hb))

theorem consumedFrom_afterRead {q p : Ports} (h : q.ConsumedFrom p) : q.ConsumedFrom p.afterRead := by
  by_cases hb : ∃ b, p.readAnswer = .byte b
  · exact h.next (afterRead_byte hb.choose_spec)
  · exact h.same (afterRead_none (not_exists.mp hb))

theorem congruence_consumedFrom (q : Ports) : StepCongruence fun s t => t = s ∧ q.ConsumedFrom s.ports :=
  congruence_of_invariant (fun _ _ _ => id) (fun _ _ => id) (fun _ _ => id) (fun _ _ _ => id) (fun _ _ => id)
    (fun _ => id) (fun _ _ h => h.same ⟨rfl, rfl, rfl⟩) (fun _ => consumedFrom_afterPoll)
    (fun _ => consumedFrom_afterRead) (fun _ h => h.same ⟨rfl, rfl, rfl⟩) (fun _ _ h => h.same ⟨rfl, rfl, rfl⟩)

/-- Settles O57: a transaction drops the stream's next byte or nothing, so a step drops as many as it counts. -/
theorem stepConsumesTheInputInOrder : Obligations.StepConsumesTheInputInOrder := by
  intro s t hstep
  obtain ⟨t', ht', k, htaken, hends, hinput⟩ :=
    step_keeps (congruence_consumedFrom s.ports) ⟨0, rfl, rfl, rfl⟩
  obtain rfl : t' = t := Host.Outcome.next.inj (ht'.symm.trans hstep)
  have hk : t'.ports.inputTaken - s.ports.inputTaken = k := by omega
  exact ⟨by omega, hends, by rw [hk, hinput]⟩

/-! ### Runs that differ in what was written before -/

/-- `s` and `t` have written the same bytes after `o` and `o'`, and differ in nothing else. -/
def SameButOutput (o o' : List Byte) (s t : State) : Prop :=
  ∃ bs, s.ports.output = o ++ bs ∧ t = s.withOutput (o' ++ bs)

theorem afterPoll_with_output (p : Ports) (o : List Byte) :
    Ports.afterPoll { p with output := o } = { p.afterPoll with output := o } := by
  have hanswer : Ports.pollAnswer { p with output := o } = p.pollAnswer := rfl
  unfold Ports.afterPoll
  rw [hanswer]
  cases p.pollAnswer <;> rfl

theorem afterRead_with_output (p : Ports) (o : List Byte) :
    Ports.afterRead { p with output := o } = { p.afterRead with output := o } := by
  have hanswer : Ports.readAnswer { p with output := o } = p.readAnswer := rfl
  unfold Ports.afterRead
  rw [hanswer]
  cases p.readAnswer <;> rfl

/-- No operation reads the output, and one that writes appends the same byte to both (R213). -/
theorem congruence_sameButOutput (o o' : List Byte) : StepCongruence (SameButOutput o o') where
  regs := by rintro s _ ⟨bs, hs, rfl⟩; rfl
  pc := by rintro s _ ⟨bs, hs, rfl⟩; rfl
  mem := by rintro s _ ⟨bs, hs, rfl⟩; rfl
  runState := by rintro s _ ⟨bs, hs, rfl⟩; rfl
  service := by rintro s _ ⟨bs, hs, rfl⟩; rfl
  pollAnswer := by rintro s _ ⟨bs, hs, rfl⟩; rfl
  readAnswer := by rintro s _ ⟨bs, hs, rfl⟩; rfl
  outChoice := by rintro s _ ⟨bs, hs, rfl⟩; rfl
  setReg r v := by rintro ⟨bs, hs, rfl⟩; exact ⟨bs, hs, rfl⟩
  setcc v := by rintro ⟨bs, hs, rfl⟩; exact ⟨bs, hs, rfl⟩
  setPc v := by rintro ⟨bs, hs, rfl⟩; exact ⟨bs, hs, rfl⟩
  setWord a v := by rintro ⟨bs, hs, rfl⟩; exact ⟨bs, hs, rfl⟩
  setService v := by rintro ⟨bs, hs, rfl⟩; exact ⟨bs, hs, rfl⟩
  halt := by rintro s _ ⟨bs, hs, rfl⟩; exact ⟨bs, hs, rfl⟩
  raise f := by rintro ⟨bs, hs, rfl⟩; exact ⟨bs, hs, rfl⟩
  afterPoll := by
    rintro s _ ⟨bs, hs, rfl⟩
    exact ⟨bs, (afterPoll_output s.ports).trans hs, congrArg s.setPorts (afterPoll_with_output s.ports _)⟩
  afterRead := by
    rintro s _ ⟨bs, hs, rfl⟩
    exact ⟨bs, (afterRead_output s.ports).trans hs, congrArg s.setPorts (afterRead_with_output s.ports _)⟩
  afterOut := by rintro s _ ⟨bs, hs, rfl⟩; exact ⟨bs, hs, rfl⟩
  append b := by
    rintro ⟨bs, hs, rfl⟩
    refine ⟨bs ++ [b], by simp [hs], ?_⟩
    rw [← List.append_assoc]
    rfl

/-- Settles O58: the states that differ in the bytes written so far are in a relation that every operation keeps. -/
theorem theOutputIsNeverReadBack : Obligations.TheOutputIsNeverReadBack := by
  intro s t o hstep
  have hrel : SameButOutput s.ports.output o s (s.withOutput o) := ⟨[], by simp, by simp⟩
  obtain ⟨t', u, ht', hu, bs, hbs, rfl⟩ :=
    (congruence_sameButOutput s.ports.output o).step hrel fun ⟨_, _, ht⟩ => by rw [ht]; rfl
  obtain rfl : t' = t := Host.Outcome.next.inj (ht'.symm.trans hstep)
  exact ⟨bs, hbs, hu⟩

/-- Settles O56: the bytes that O58 says the step writes. -/
theorem stepOnlyAppendsToTheOutput : Obligations.StepOnlyAppendsToTheOutput := by
  intro s t hstep
  obtain ⟨bs, hbs, -⟩ := theOutputIsNeverReadBack s t [] hstep
  exact ⟨bs, hbs⟩

/-! ### Runs that differ in COND -/

/-- `s` and `t` differ in COND alone. -/
def SameButCond (s t : State) : Prop := ∃ c, t = s.setCond c

/-- No operation but BR's test looks at COND. -/
theorem congruence_sameButCond : StepCongruence SameButCond where
  regs := by rintro s _ ⟨c, rfl⟩; rfl
  pc := by rintro s _ ⟨c, rfl⟩; rfl
  mem := by rintro s _ ⟨c, rfl⟩; rfl
  runState := by rintro s _ ⟨c, rfl⟩; rfl
  service := by rintro s _ ⟨c, rfl⟩; rfl
  pollAnswer := by rintro s _ ⟨c, rfl⟩; rfl
  readAnswer := by rintro s _ ⟨c, rfl⟩; rfl
  outChoice := by rintro s _ ⟨c, rfl⟩; rfl
  setReg r v := by rintro ⟨c, rfl⟩; exact ⟨c, rfl⟩
  setcc v := by rintro ⟨c, rfl⟩; exact ⟨condOf v, rfl⟩
  setPc v := by rintro ⟨c, rfl⟩; exact ⟨c, rfl⟩
  setWord a v := by rintro ⟨c, rfl⟩; exact ⟨c, rfl⟩
  setService v := by rintro ⟨c, rfl⟩; exact ⟨c, rfl⟩
  halt := by rintro s _ ⟨c, rfl⟩; exact ⟨c, rfl⟩
  raise f := by rintro ⟨c, rfl⟩; exact ⟨c, rfl⟩
  afterPoll := by rintro s _ ⟨c, rfl⟩; exact ⟨c, rfl⟩
  afterRead := by rintro s _ ⟨c, rfl⟩; exact ⟨c, rfl⟩
  afterOut := by rintro s _ ⟨c, rfl⟩; exact ⟨c, rfl⟩
  append b := by rintro ⟨c, rfl⟩; exact ⟨c, rfl⟩

/-- Settles O54: every operation but BR's test keeps the relation of states that differ in COND alone. -/
theorem onlyBrReadsCond : Obligations.OnlyBrReadsCond := by
  intro i c s t hbr hexec
  have hrel : SameButCond s (s.setCond c) := ⟨c, rfl⟩
  obtain ⟨t', u, ht', hu, d, rfl⟩ :=
    congruence_sameButCond.exec hrel i fun n z p off hi => absurd hi (hbr n z p off)
  obtain rfl : t' = t := Host.Outcome.next.inj (ht'.symm.trans hexec)
  exact ⟨_, hu, rfl⟩

end Sys2Proof.Machine
end

section
/-! What an instruction may change and how it may end, said once for every instruction (R22, R24, R28, R51, R202): first
for the trap services from their entry on, then for each class of instruction. -/

namespace Sys2Proof.Machine

/-- How an operation leaves the run: as it was, or FAULTED for a reason it may raise, the message in the report. -/
inductive RunEnds (may : FaultReason → Prop) (s t : State) : Prop where
  | runsOn : t.runState = s.runState → t.ports.report = s.ports.report → RunEnds may s t
  | faults (r : FaultReason) : may r → t.runState = .faulted r → t.ports.report = Config.faultMessage r →
      RunEnds may s t

theorem RunEnds.after {may : FaultReason → Prop} {s t u : State} (h : RunEnds may t u)
    (hrun : t.runState = s.runState) (hreport : t.ports.report = s.ports.report) : RunEnds may s u := by
  cases h with
  | runsOn hr hp => exact .runsOn (hr.trans hrun) (hp.trans hreport)
  | faults r hmay hr hp => exact .faults r hmay hr hp

/-! ### The trap services -/

/-- The reasons that a console transaction raises (R202). -/
def ConsoleFault (r : FaultReason) : Prop := r = .inputError ∨ r = .outputError

/-- What a service does from its entry on: it writes at most the registers `rs`, COND only if `sets`, and the device
words by polls; and it leaves its service in progress only in a run that goes on. -/
structure ServiceFrame (rs : List Reg) (sets : Bool) (may : FaultReason → Prop) (s t : State) : Prop where
  regs : RegsSameBut rs s t
  cond : sets = false → t.cond = s.cond
  pc : t.pc = s.pc
  mem : s.mem.wf = true → MemSameBut [kbsrAddr, kbdrAddr] s t
  service : t.runState = s.runState ∨ t.service = s.service ∨ t.service = .idle
  ends : RunEnds may s t

theorem memSameBut_device {s t : State} (h : ∀ b, b ≠ kbsrAddr → b ≠ kbdrAddr → t.mem.read b = s.mem.read b) :
    MemSameBut [kbsrAddr, kbdrAddr] s t := fun b hb =>
  h b (List.ne_of_not_mem_cons hb) (List.ne_of_not_mem_cons (List.not_mem_of_not_mem_cons hb))

theorem ServiceFrame.after_output {rs : List Reg} {sets : Bool} {may : FaultReason → Prop} {s s1 t : State}
    (k : OutKeeps s s1) (hrun : s1.runState = s.runState) (hreport : s1.ports.report = s.ports.report)
    (h : ServiceFrame rs sets may s1 t) : ServiceFrame rs sets may s t where
  regs r hr := (h.regs r hr).trans (k.reg r)
  cond hc := (h.cond hc).trans k.cond
  pc := h.pc.trans k.pc
  mem hwf a ha := by
    rw [← k.mem] at hwf ⊢
    exact h.mem hwf a ha
  service := by rw [← hrun, ← k.service]; exact h.service
  ends := h.ends.after hrun hreport

theorem ServiceFrame.of_outputFault {rs : List Reg} {sets : Bool} {may : FaultReason → Prop} {s t : State}
    (k : OutKeeps s t) (hmay : may .outputError) (hrun : t.runState = .faulted .outputError)
    (hreport : t.ports.report = Config.faultMessage .outputError) : ServiceFrame rs sets may s t where
  regs r _ := k.reg r
  cond _ := k.cond
  pc := k.pc
  mem _ a _ := by rw [k.mem]
  service := .inr (.inl k.service)
  ends := .faults _ hmay hrun hreport

/-- GETC and IN from their read on: what delivers the byte has this frame, and the other answers write nothing. -/
theorem awaitByte_frame {rs : List Reg} {sets : Bool} {may : FaultReason → Prop} (waiting : Service)
    {deliver : Byte → State → State} (hmay : may .inputError)
    (hdeliver : ∀ b s, ServiceFrame rs sets may s (deliver b s)) (s : State) :
    ServiceFrame rs sets may s (awaitByte waiting deliver s) := by
  rcases awaitByte_cases waiting deliver s with ⟨b, -, e⟩ | ⟨-, e⟩ | ⟨-, e⟩ <;> rw [e]
  · have h := hdeliver b (trapReturn (s.setPorts s.ports.afterRead))
    exact ⟨h.regs, h.cond, h.pc, h.mem, h.service.imp id fun hs => .inr (hs.elim id id),
      h.ends.after rfl (afterRead_report s.ports)⟩
  · exact ⟨fun _ _ => rfl, fun _ => rfl, rfl, fun _ _ _ => rfl, .inr (.inr rfl), .faults _ hmay rfl rfl⟩
  · exact ⟨fun _ _ => rfl, fun _ => rfl, rfl, fun _ _ _ => rfl, .inl rfl, .runsOn rfl (afterRead_report s.ports)⟩

theorem setInput_frame {may : FaultReason → Prop} (v : Word) (s : State) :
    ServiceFrame [0] Config.trapInSetsCond may s (s.setInput v) where
  regs r hr := setInput_reg_other s r v (List.ne_of_not_mem_cons hr)
  cond hc := by rw [setInput_cond, hc]; rfl
  pc := setInput_pc s v
  mem _ a _ := by rw [setInput_mem]
  service := .inl (setInput_runState s v)
  ends := .runsOn (setInput_runState s v) (by rw [setInput_ports])

theorem getcService_frame (s : State) :
    ServiceFrame [0] Config.trapInSetsCond (· = .inputError) s (getcService s) :=
  awaitByte_frame (may := (· = .inputError)) .getc rfl (fun b => setInput_frame (zext16 b)) s

theorem echoByte_frame (b : Byte) (s : State) :
    ServiceFrame [0] Config.trapInSetsCond ConsoleFault s (echoByte b s) := by
  unfold echoByte
  rcases outByte_cases b s with ⟨s1, e, k, hrun, hreport, -⟩ | ⟨s1, e, k, hrun, hreport, -⟩ <;> rw [e]
  · exact (setInput_frame (zext16 b) s1).after_output k hrun hreport
  · exact .of_outputFault k (.inr rfl) hrun hreport

theorem inService_frame (s : State) : ServiceFrame [0] Config.trapInSetsCond ConsoleFault s (inService s) :=
  awaitByte_frame .inRead (.inl rfl) echoByte_frame s

theorem stringLoop_frame (put : Word → State → Result Unit) (unfinished : Word → Service) (f : Word → List Byte)
    (hput : ∀ w s, put w s = outBytes (f w) s) (fuel : Nat) (a : Word) (s : State) :
    ServiceFrame [] false ConsoleFault s (stringLoop put unfinished fuel a s) := by
  obtain ⟨k, h⟩ := stringLoop_cases put unfinished f hput fuel a s
  refine ⟨fun r _ => k.reg r, fun _ => k.cond, k.pc, fun hwf => memSameBut_device (k.mem hwf),
    h.elim (fun h => .inr (.inl h.1)) (fun h => .inl h.2.1), ?_⟩
  rcases h with ⟨-, ⟨hrun, hreport⟩ | ⟨hin | hout, hreport⟩⟩ | ⟨-, hrun, hreport⟩
  · exact .runsOn hrun hreport
  · exact .faults _ (.inl rfl) hin (hreport _ hin)
  · exact .faults _ (.inr rfl) hout (hreport _ hout)
  · exact .runsOn hrun hreport

theorem putsService_frame (a : Word) (s : State) : ServiceFrame [] false ConsoleFault s (putsService a s) :=
  stringLoop_frame putWord .puts lowByte putWord_eq stringLap a s

theorem putspService_frame (a : Word) (s : State) : ServiceFrame [] false ConsoleFault s (putspService a s) :=
  stringLoop_frame putPackedWord .putsp packedBytes putPackedWord_eq stringLap a s

/-! ### The instructions -/

/-- The seven rows of opcode 15 (R81). -/
def isTrap (i : Instr) : Bool := opcodeNumber i == 15

/-- What an instruction may change, by the lists of R22, R24, R28 and R51, and how it may end (R202, R176). Only a TRAP,
which saves the return address in x[7], may leave a service in progress. -/
structure ExecFrame (i : Instr) (s t : State) : Prop where
  regs : RegsSameBut (writtenRegs i) s t
  cond : writesCond i = false → t.cond = s.cond
  pc : writesPc i = false → t.pc = s.pc
  mem : storesWord i = false → s.mem.wf = true → MemSameBut [kbsrAddr, kbdrAddr] s t
  link : isTrap i = true → t.reg linkReg = t.pc
  service : (isTrap i = true ∧ t.runState = s.runState) ∨ t.service = s.service ∨ t.service = .idle
  ends : RunEnds (mayRaise i) s t ∨
    i = .trapHalt ∧ t.runState = .halted ∧ t.ports.report = s.ports.report ∧ t.service = s.service

variable {i : Instr} {s s1 : State}

/-- The instructions that read at most one word or pointer and then write a destination. -/
theorem execFrame_setDest {dr : Reg} (k : ReadKeeps s s1) (hregs : writtenRegs i = [dr]) (hcond : writesCond i = true)
    (hop : isTrap i = false) (v : Word) : ExecFrame i s (s1.setDest dr v) where
  regs r hr := (setDest_reg_other s1 dr r v (List.ne_of_not_mem_cons (hregs ▸ hr))).trans (k.reg r)
  cond hc := absurd hc (by simp [hcond])
  pc _ := k.pc
  mem _ hwf := memSameBut_device (k.mem hwf)
  link h := absurd h (by simp [hop])
  service := .inr (.inl k.service)
  ends := .inl (.runsOn k.runState k.report)

theorem execFrame_setWord (k : ReadKeeps s s1) (hstore : storesWord i = true) (hop : isTrap i = false) (a v : Word) :
    ExecFrame i s (s1.setWord a v) where
  regs r _ := k.reg r
  cond _ := k.cond
  pc _ := k.pc
  mem h := absurd h (by simp [hstore])
  link h := absurd h (by simp [hop])
  service := .inr (.inl k.service)
  ends := .inl (.runsOn k.runState k.report)

/-- An instruction ended by the poll of one of its reads. -/
theorem execFrame_pollFault (k : ReadKeeps s s1) (hmay : mayRaise i .inputError) (hop : isTrap i = false) :
    ExecFrame i s ((s1.setPorts s1.ports.afterPoll).raise .inputError) where
  regs r _ := k.reg r
  cond _ := k.cond
  pc _ := k.pc
  mem _ hwf := memSameBut_device (k.mem hwf)
  link h := absurd h (by simp [hop])
  service := .inr (.inl k.service)
  ends := .inl (.faults _ hmay rfl rfl)

theorem execFrame_loadFrom {dr : Reg} (k : ReadKeeps s s1) (hregs : writtenRegs i = [dr]) (hcond : writesCond i = true)
    (hmay : mayRaise i .inputError) (hop : isTrap i = false) (ea : Word) : ExecFrame i s (loadFrom dr ea s1) := by
  rcases loadFrom_cases dr ea s1 with ⟨w, s2, -, k2, e⟩ | ⟨-, e⟩ <;> rw [e]
  · exact execFrame_setDest (k.trans k2) hregs hcond hop w
  · exact execFrame_pollFault k hmay hop

theorem execFrame_setPc (hpc : writesPc i = true) (hop : isTrap i = false) (target : Word) :
    ExecFrame i s (s.setPc target) where
  regs _ _ := rfl
  cond _ := rfl
  pc h := absurd h (by simp [hpc])
  mem _ _ _ _ := rfl
  link h := absurd h (by simp [hop])
  service := .inr (.inl rfl)
  ends := .inl (.runsOn rfl rfl)

theorem execFrame_linkPc_setPc (hregs : writtenRegs i = [7]) (hpc : writesPc i = true) (hop : isTrap i = false)
    (target : Word) : ExecFrame i s ((linkPc s).setPc target) where
  regs r hr := setReg_reg_other s linkReg r s.pc (List.ne_of_not_mem_cons (hregs ▸ hr))
  cond _ := rfl
  pc h := absurd h (by simp [hpc])
  mem _ _ _ _ := rfl
  link h := absurd h (by simp [hop])
  service := .inr (.inl rfl)
  ends := .inl (.runsOn rfl rfl)

theorem execFrame_refl (hop : isTrap i = false) : ExecFrame i s s where
  regs _ _ := rfl
  cond _ := rfl
  pc _ := rfl
  mem _ _ _ _ := rfl
  link h := absurd h (by simp [hop])
  service := .inr (.inl rfl)
  ends := .inl (.runsOn rfl rfl)

/-- A TRAP that runs its service after the entry. -/
theorem execFrame_trap {rs : List Reg} {t : State} (hop : isTrap i = true) (hregs : writtenRegs i = 7 :: rs)
    (hlink : linkReg ∉ rs) (h : ServiceFrame rs (writesCond i) (mayRaise i) (trapEnter s) t) : ExecFrame i s t where
  regs r hr := by
    rw [hregs] at hr
    exact (h.regs r (List.not_mem_of_not_mem_cons hr)).trans (trapEnter_reg s r (List.ne_of_not_mem_cons hr))
  cond := h.cond
  pc _ := h.pc
  mem _ hwf := h.mem hwf
  link _ := (h.regs linkReg hlink).trans ((trapEnter_link s).trans h.pc.symm)
  service := h.service.imp (fun hr => ⟨hop, hr⟩) id
  ends := .inl (h.ends.after rfl rfl)

/-- A raise keeps all but the run state and the report. -/
theorem raise_frame {may : FaultReason → Prop} {r : FaultReason} (hmay : may r) (s : State) :
    ServiceFrame [] false may s (s.raise r) :=
  ⟨fun _ _ => rfl, fun _ => rfl, rfl, fun _ _ _ => rfl, .inr (.inl rfl), .faults r hmay rfl rfl⟩

theorem out_frame (b : Byte) (s : State) :
    ServiceFrame [] false (· = .outputError) s ((outByte b s).andThen fun _ s' => s') := by
  rcases outByte_cases b s with ⟨s1, e, k, hrun, hreport, -⟩ | ⟨s1, e, k, hrun, hreport, -⟩ <;> rw [e]
  · exact ⟨fun r _ => k.reg r, fun _ => k.cond, k.pc, fun _ a _ => by rw [andThen_ok, k.mem], .inl hrun,
      .runsOn hrun hreport⟩
  · exact .of_outputFault k rfl hrun hreport

theorem in_frame (s : State) : ServiceFrame [0] Config.trapInSetsCond ConsoleFault s
    ((outBytes Config.inPrompt s).andThen fun _ s' => inService s') := by
  rcases outBytes_cases Config.inPrompt s with ⟨s1, e, k, hrun, hreport, -⟩ | ⟨s1, e, k, hrun, hreport⟩ <;> rw [e]
  · exact (inService_frame s1).after_output k hrun hreport
  · exact .of_outputFault k (.inr rfl) hrun hreport

/-- HALT ends the run HALTED after its message, or in the message's fault. -/
theorem halt_frame (s : State) : ExecFrame .trapHalt s
    ((outBytes Config.haltMessage (trapEnter s)).andThen fun _ s' => (outFlush s').halt) := by
  rcases outBytes_cases Config.haltMessage (trapEnter s) with ⟨s1, e, k, -, hreport, -⟩ | ⟨s1, e, k, hrun, hreport⟩ <;>
    rw [e]
  · exact {
      regs := fun r hr => (k.reg r).trans (trapEnter_reg s r (List.ne_of_not_mem_cons hr))
      cond := fun _ => k.cond
      pc := fun _ => k.pc
      mem := fun _ _ a _ => congrArg (Memory.read · a) k.mem
      link := fun _ => (k.reg linkReg).trans ((trapEnter_link s).trans k.pc.symm)
      service := .inr (.inl k.service)
      ends := .inr ⟨rfl, rfl, hreport, k.service⟩ }
  · exact execFrame_trap rfl rfl List.not_mem_nil (.of_outputFault k rfl hrun hreport)

/-- LDI and STI go on after the pointer read, or end in its fault. -/
theorem execFrame_indirect {k : Word → State → State} (off : BitVec 9) (hmay : mayRaise i .inputError)
    (hop : isTrap i = false) (hk : ∀ ea s1, ReadKeeps s s1 → ExecFrame i s (k ea s1)) :
    ExecFrame i s ((indirect9 s off).andThen k) := by
  unfold indirect9
  rcases memRead_cases (pcRelative9 s off) s with ⟨s1, e, keeps⟩ | ⟨-, e⟩ <;> rw [e]
  · exact hk _ s1 keeps
  · exact execFrame_pollFault (.refl s) hmay hop

/-- Every instruction keeps to its lists. -/
theorem exec_frame (i : Instr) (s : State) : ∃ t, exec i s = .next t ∧ ExecFrame i s t := by
  have hrefl := ReadKeeps.refl s
  cases i with
  | br n z p off =>
    refine ⟨_, rfl, ?_⟩
    split
    · exact execFrame_setPc rfl rfl _
    · exact execFrame_refl rfl
  | addReg | addImm | andReg | andImm | notReg | lea => exact ⟨_, rfl, execFrame_setDest hrefl rfl rfl rfl _⟩
  | ld | ldr => exact ⟨_, rfl, execFrame_loadFrom hrefl rfl rfl (by exact rfl) rfl _⟩
  | ldi dr off =>
    exact ⟨_, rfl, execFrame_indirect off (by exact rfl) rfl fun ea _ k =>
      execFrame_loadFrom k rfl rfl (by exact rfl) rfl ea⟩
  | st | str => exact ⟨_, rfl, execFrame_setWord hrefl rfl rfl _ _⟩
  | sti sr off =>
    exact ⟨_, rfl, execFrame_indirect off (by exact rfl) rfl fun ea _ k => execFrame_setWord k rfl rfl ea _⟩
  | jmp | ret => exact ⟨_, rfl, execFrame_setPc rfl rfl _⟩
  | jsr | jsrr => exact ⟨_, rfl, execFrame_linkPc_setPc rfl rfl rfl _⟩
  | rti | res => exact ⟨_, rfl, execFrame_refl rfl⟩
  | trapGetc => exact ⟨_, rfl, execFrame_trap rfl rfl (by decide) (getcService_frame _)⟩
  | trapOut => exact ⟨_, rfl, execFrame_trap rfl rfl (by decide) (out_frame _ _)⟩
  | trapPuts => exact ⟨_, rfl, execFrame_trap rfl rfl (by decide) (putsService_frame _ _)⟩
  | trapIn => exact ⟨_, rfl, execFrame_trap rfl rfl (by decide) (in_frame _)⟩
  | trapPutsp => exact ⟨_, rfl, execFrame_trap rfl rfl (by decide) (putspService_frame _ _)⟩
  | trapHalt => exact ⟨_, rfl, halt_frame s⟩
  | trapInvalid v => exact ⟨_, rfl, execFrame_trap rfl rfl (by decide) (raise_frame (by exact rfl) _)⟩

/-- The same, of a given next state. -/
theorem execFrame_of_exec {t : State} (h : exec i s = .next t) : ExecFrame i s t := by
  obtain ⟨t', ht', hframe⟩ := exec_frame i s
  obtain rfl : t' = t := Host.Outcome.next.inj (ht'.symm.trans h)
  exact hframe

/-- Settles O50: the registers of the instruction's frame. -/
theorem onlyListedRegistersAreWritten : Obligations.OnlyListedRegistersAreWritten :=
  fun _ _ _ hexec => (execFrame_of_exec hexec).regs

/-- Settles O51: COND in the instruction's frame. -/
theorem onlyListedInstructionsWriteCond : Obligations.OnlyListedInstructionsWriteCond :=
  fun _ _ _ hcond hexec => (execFrame_of_exec hexec).cond hcond

/-- Settles O52: pc in the instruction's frame. -/
theorem onlyControlTransfersWritePc : Obligations.OnlyControlTransfersWritePc :=
  fun _ _ _ hpc hexec => (execFrame_of_exec hexec).pc hpc

/-- Settles O53: memory in the instruction's frame. -/
theorem onlyStoresAndPollsChangeMemory : Obligations.OnlyStoresAndPollsChangeMemory :=
  fun _ _ _ hwf hstore hexec => (execFrame_of_exec hexec).mem hstore hwf

/-- Settles O55: a running core's instruction leaves the run as it was, raises a listed reason, or is HALT. -/
theorem faultsAndHaltsComeFromTheListedInstructions : Obligations.FaultsAndHaltsComeFromTheListedInstructions := by
  intro i s t hrunning hexec
  rcases (execFrame_of_exec hexec).ends with (⟨hrun, -⟩ | ⟨r, hmay, hrun, -⟩) | ⟨hi, hrun, -⟩
  · simp [hrun, hrunning]
  · simpa [hrun] using hmay
  · simpa [hrun] using hi

end Sys2Proof.Machine
end

section
/-! The invariant of the step (R26, R33, R176, R177, R202, R219). Canonical memory and a legal COND are kept by every
primitive update; the rest follows from how an instruction, a service gone on with, or a failed fetch may end. -/

namespace Sys2Proof.Machine

/-! ### The step, case by case -/

/-- A step of an ended run answers the same state (R34; log 13). -/
theorem step_of_ended {s : State} (h : s.runState ≠ .running) : step s = .next s := by
  unfold step
  cases hrun : s.runState with
  | running => exact absurd hrun h
  | halted => rfl
  | faulted r => rfl

theorem status_eq_running_iff (s : State) : s.status = .running ↔ s.runState = .running := by
  unfold State.status
  cases s.runState <;> simp

/-- Settles O6: the status port shows RUNNING in that run state alone, and a step of an ended run answers its state. -/
theorem anEndedRunNeverChanges : Obligations.AnEndedRunNeverChanges :=
  fun s h => step_of_ended (mt (status_eq_running_iff s).mpr h)

/-- A word that decodes is dispatched to its instruction. -/
theorem dispatchWord_of_decode {w : Word} {i : Instr} (h : decode w = .ok i) (s : State) :
    dispatchWord w s = exec i s := by
  simp only [dispatchWord, h]

/-- Away from KBSR_ADDR a fetch reads the stored word and moves pc on, so a step dispatches that word. -/
theorem step_plain {s : State} (hrun : s.runState = .running) (hidle : s.service = .idle) (hpc : s.pc ≠ kbsrAddr) :
    step s = dispatchWord (s.mem.read s.pc) (s.setPc (s.pc + 1)) := by
  rw [step_running_idle hrun hidle, instructionCycle, fetch, memRead_plain hpc]
  rfl

/-- Settles O7: the fetched word is dispatched to the instruction it decodes to. -/
theorem stepRunsTheDecodedInstruction : Obligations.StepRunsTheDecodedInstruction := by
  intro s i hrun hidle hpc hdecode
  rw [step_plain hrun hidle hpc, dispatchWord_of_decode hdecode]

/-- A wait overwrites the service in progress, so that it does not matter which one it was. -/
theorem awaitByte_trapReturn (waiting : Service) (deliver : Byte → State → State) (s : State) :
    awaitByte waiting deliver (trapReturn s) = awaitByte waiting deliver s := rfl

/-- Going on with a service runs the rest of it from the state with no service in progress. -/
theorem resumeService_frame {s : State} (h : s.service ≠ .idle) :
    ∃ sets, ServiceFrame [0] sets ConsoleFault (trapReturn s) (resumeService s) := by
  have hwiden {t : State} (k : ServiceFrame [] false ConsoleFault (trapReturn s) t) :
      ServiceFrame [0] false ConsoleFault (trapReturn s) t := ⟨fun r _ => k.regs r List.not_mem_nil, k.cond, k.pc,
        k.mem, k.service, k.ends⟩
  unfold resumeService
  cases hs : s.service with
  | idle => exact absurd hs h
  | getc =>
    dsimp only
    rw [getcService, ← awaitByte_trapReturn]
    exact ⟨_, awaitByte_frame .getc (.inl rfl) (fun b => setInput_frame (zext16 b)) (trapReturn s)⟩
  | inRead =>
    dsimp only
    rw [inService, ← awaitByte_trapReturn]
    exact ⟨_, inService_frame (trapReturn s)⟩
  | puts a => exact ⟨_, hwiden (putsService_frame a _)⟩
  | putsp a => exact ⟨_, hwiden (putspService_frame a _)⟩

/-! ### Memory and COND -/

/-- The class of a result is one of COND's values. -/
theorem legalCond_condOf (v : Word) : LegalCond (condOf v) := by
  unfold LegalCond condOf
  split
  · exact .inr (.inr (.inl rfl))
  · split
    · exact .inr (.inr (.inr rfl))
    · exact .inr (.inl rfl)

/-- The part of the invariant that looks at nothing but memory and COND. -/
def MemCondOk (s : State) : Prop := s.mem.wf = true ∧ LegalCond s.cond

/-- A store keeps the canonical form, `setcc` gives a legal COND, and nothing else touches either. -/
theorem congruence_memCondOk : StepCongruence fun s t => t = s ∧ MemCondOk s :=
  congruence_of_invariant (fun _ _ _ => id) (fun _ v h => ⟨h.1, legalCond_condOf v⟩) (fun _ _ => id)
    (fun _ _ _ h => ⟨write_wf h.1, h.2⟩) (fun _ _ => id) (fun _ => id) (fun _ _ => id) (fun _ => id) (fun _ => id)
    (fun _ => id) (fun _ _ => id)

/-! ### The ends of a step -/

/-- From a running state with an empty report: the invariant where the run goes on or faults, if a service left in
progress and an invalid vector come with the return address. -/
theorem inv_of_runEnds {may : FaultReason → Prop} {s t : State} (hok : MemCondOk t) (hrun : s.runState = .running)
    (hreport : s.ports.report = []) (hends : RunEnds may s t)
    (hservice : t.service ≠ .idle → t.runState = s.runState ∧ t.reg linkReg = t.pc)
    (hvector : ∀ v, may (.invalidTrap v) → isServiceVector v = false ∧ t.reg linkReg = t.pc) : t.Inv := by
  obtain ⟨hwf, hcond⟩ := hok
  cases hends with
  | runsOn htrun htreport =>
    rw [hrun] at htrun
    rw [hreport] at htreport
    exact ⟨hwf, hcond, fun h => ⟨htrun, (hservice h).2⟩, fun _ => htreport, fun r h => by simp [htrun] at h,
      fun h => by simp [htrun] at h, fun v h => by simp [htrun] at h⟩
  | faults r hmay htrun htreport =>
    refine ⟨hwf, hcond, fun h => ?_, fun h => absurd htrun (h r), fun r' h => ?_, fun h => by simp [htrun] at h,
      fun v h => ?_⟩
    · have hrunning := (hservice h).1
      simp [htrun, hrun] at hrunning
    · obtain rfl : r = r' := by simpa [htrun] using h
      exact htreport
    · obtain rfl : r = .invalidTrap v := by simpa [htrun] using h
      exact hvector v hmay

/-- Only a TRAP with that vector raises an invalid vector (R202). -/
theorem eq_trapInvalid_of_mayRaise {i : Instr} {v : Byte} (h : mayRaise i (.invalidTrap v)) : i = .trapInvalid v := by
  cases i with
  | trapInvalid w =>
    obtain rfl : v = w := by simpa [mayRaise] using h
    rfl
  | _ => simp [mayRaise] at h

/-- An instruction of the decoder keeps the invariant, from a core that has just fetched it. -/
theorem inv_of_execFrame {i : Instr} {s t : State} (k : ExecFrame i s t) (hwf : i.wf = true) (hok : MemCondOk t)
    (hrun : s.runState = .running) (hidle : s.service = .idle) (hreport : s.ports.report = []) : t.Inv := by
  rcases k.ends with hends | ⟨rfl, htrun, htreport, htservice⟩
  · refine inv_of_runEnds hok hrun hreport hends (fun h => ?_) fun v hmay => ?_
    · rcases k.service with ⟨htrap, hsame⟩ | hsame | hsame
      · exact ⟨hsame, k.link htrap⟩
      · exact absurd (hsame.trans hidle) h
      · exact absurd hsame h
    · obtain rfl := eq_trapInvalid_of_mayRaise hmay
      exact ⟨by simpa [Instr.wf] using hwf, k.link rfl⟩
  · exact ⟨hok.1, hok.2, fun h => absurd (htservice.trans hidle) h, fun _ => htreport.trans hreport,
      fun r h => by simp [htrun] at h, fun _ => k.link rfl, fun v h => by simp [htrun] at h⟩

/-- A service gone on with keeps the invariant: it leaves x[7] alone. -/
theorem inv_of_serviceFrame {sets : Bool} {s t : State} (hs : s.Inv) (hbusy : s.service ≠ .idle) (hok : MemCondOk t)
    (k : ServiceFrame [0] sets ConsoleFault (trapReturn s) t) : t.Inv := by
  obtain ⟨hrun, hlink⟩ := hs.serviceRuns hbusy
  have hreport : s.ports.report = [] := hs.reportClear fun r h => by simp [hrun] at h
  have htlink : t.reg linkReg = t.pc := (k.regs linkReg (by decide)).trans (hlink.trans k.pc.symm)
  refine inv_of_runEnds hok hrun hreport (k.ends.after rfl rfl) (fun h => ⟨?_, htlink⟩) fun v hmay => ?_
  · exact k.service.elim id fun hidle => absurd (hidle.elim id id) h
  · rcases hmay with hmay | hmay <;> cases hmay

/-- Settles O4. Memory and COND: every primitive update keeps them. The rest: an ended run stays, a service in progress
ends by its frame, and a fetch hands a running core with an empty report to its instruction, or ends in its fault. -/
theorem stepKeepsTheInvariant : Obligations.StepKeepsTheInvariant := by
  intro s t hs hstep
  obtain ⟨t', ht', hok⟩ := step_keeps congruence_memCondOk ⟨hs.memory, hs.cond⟩
  obtain rfl : t' = t := Host.Outcome.next.inj (ht'.symm.trans hstep)
  by_cases hrun : s.runState = .running
  case neg =>
    obtain rfl : s = t' := Host.Outcome.next.inj ((step_of_ended hrun).symm.trans hstep)
    exact hs
  by_cases hidle : s.service = .idle
  case neg =>
    obtain rfl : resumeService s = t' := Host.Outcome.next.inj ((step_running_service hrun hidle).symm.trans hstep)
    obtain ⟨sets, k⟩ := resumeService_frame hidle
    exact inv_of_serviceFrame hs hidle hok k
  have hreport : s.ports.report = [] := hs.reportClear fun r h => by simp [hrun] at h
  rw [step_running_idle hrun hidle] at hstep
  rcases instructionCycle_cases s with ⟨s1, k, hcycle⟩ | ⟨-, hcycle⟩
  · obtain ⟨i, hdecode, hwf⟩ := decode_total (s1.mem.read s.pc)
    rw [hcycle, dispatchWord_of_decode hdecode] at hstep
    exact inv_of_execFrame (execFrame_of_exec hstep) hwf hok (k.runState.trans hrun) (k.service.trans hidle)
      (k.report.trans hreport)
  · obtain rfl := Host.Outcome.next.inj (hcycle.symm.trans hstep)
    refine inv_of_runEnds (may := (· = .inputError)) hok hrun hreport (.faults _ rfl rfl rfl)
      (fun h => absurd hidle h) fun v h => by cases h

end Sys2Proof.Machine
end

section
/-! Reset (R23, R25, R231), the status port (R202, R214), and a store at pc before the next fetch (R65). -/

namespace Sys2Proof.Machine

/-- Settles O2: the reset lemmas of each field, for any RESET_PC. -/
theorem resetLeavesTheStatedValues : Obligations.ResetLeavesTheStatedValues :=
  ⟨fun p => ⟨fun r => resetAt_reg r p, resetAt_pc p, resetAt_cond p, resetAt_mem_read p,
    (status_eq_running_iff _).mpr (resetAt_runState p), resetAt_output p, resetAt_inputTaken p, resetAt_service p⟩, rfl⟩

/-- The base case of `stepKeepsTheInvariant`. -/
theorem inv_resetAt (p : Word) : (State.resetAt p).Inv where
  memory := resetAt_mem_wf p
  cond := .inl (resetAt_cond p)
  serviceRuns h := absurd (resetAt_service p) h
  reportClear _ := resetAt_report p
  reportSet _ h := nomatch h
  haltLinked h := nomatch h
  badVector _ h := nomatch h

/-- Settles O3: the invariant at reset for any RESET_PC, and so for the default. -/
theorem resetMeetsTheInvariant : Obligations.ResetMeetsTheInvariant := ⟨inv_resetAt Config.resetPc, inv_resetAt⟩

/-- Settles O10: the status port shows the run state, with the code of its reason. -/
theorem statusPortShowsTheRunState : Obligations.StatusPortShowsTheRunState := by
  intro s
  refine ⟨fun h => ?_, fun h => ?_, fun v h => ?_, fun h => ?_, fun h => ?_⟩ <;> rw [State.status, h] <;> rfl

/-- Settles O16: each parameter is defined as the spec's choice. -/
theorem parametersHoldTheSpecsChoices : Obligations.ParametersHoldTheSpecsChoices := ⟨rfl, rfl, rfl, rfl, rfl⟩

/-- Offset 0 is the address in pc. -/
theorem pcRelative9_zero (s : State) : pcRelative9 s 0 = s.pc := BitVec.add_zero s.pc

/-- Settles O8: the store's word reads back at pc, so the next fetch dispatches it. -/
theorem aStoreIsSeenByTheNextFetch : Obligations.AStoreIsSeenByTheNextFetch := by
  intro sr s hwf hrun hidle hpc
  have hexec := exec_st sr 0 s
  rw [pcRelative9_zero] at hexec
  refine ⟨_, hexec, rfl, (step_plain (s := s.setWord s.pc (s.reg sr)) hrun hidle hpc).trans ?_⟩
  exact congrArg (dispatchWord · _) (read_write_self hwf s.pc (s.reg sr))

end Sys2Proof.Machine
end

section
/-! The input stream under polls and blocking reads (R35, R210 to R212, D13). -/

namespace Sys2Proof.Machine

variable {p : Ports} {b : Byte}

theorem nextByte_of_cons {rest : List Byte} (h : p.input = b :: rest) : p.nextByte = some b := by
  simp only [Ports.nextByte, h]

theorem nextByte_of_ended (h : p.input = []) (hends : p.inputEnds = true) : p.nextByte = none := by
  simp [Ports.nextByte, h, hends]

theorem nextByte_of_unlisted (h : p.input = []) (hends : p.inputEnds = false) :
    p.nextByte = Config.freeInput p.inputTaken := by
  simp [Ports.nextByte, h, hends]

theorem pollAnswer_of_some (h : p.pollChoice = .ready) (hb : p.nextByte = some b) : p.pollAnswer = .avail b := by
  simp only [Ports.pollAnswer, h, hb]

theorem pollAnswer_of_none (h : p.pollChoice = .ready) (hb : p.nextByte = none) : p.pollAnswer = .notAvail := by
  simp only [Ports.pollAnswer, h, hb]

theorem pollAnswer_of_notReady (h : p.pollChoice = .notReady) : p.pollAnswer = .notAvail := by
  simp only [Ports.pollAnswer, h]

theorem pollAnswer_of_error (h : p.pollChoice = .error) : p.pollAnswer = .error := by
  simp only [Ports.pollAnswer, h]

theorem readAnswer_of_some (h : p.readChoice = .answer) (hb : p.nextByte = some b) : p.readAnswer = .byte b := by
  simp only [Ports.readAnswer, h, hb]

theorem readAnswer_of_none (h : p.readChoice = .answer) (hb : p.nextByte = none) : p.readAnswer = .eof := by
  simp only [Ports.readAnswer, h, hb]

theorem readAnswer_of_error (h : p.readChoice = .error) : p.readAnswer = .error := by
  simp only [Ports.readAnswer, h]

theorem readAnswer_of_wait (h : p.readChoice = .wait) : p.readAnswer = .wait := by
  simp only [Ports.readAnswer, h]

/-- A poll that answers a byte answers the stream's next one. -/
theorem nextByte_of_avail (h : p.pollAnswer = .avail b) : p.nextByte = some b := by
  cases hchoice : p.pollChoice with
  | ready =>
    cases hb : p.nextByte with
    | some c => rw [pollAnswer_of_some hchoice hb] at h; cases h; rfl
    | none => rw [pollAnswer_of_none hchoice hb] at h; cases h
  | notReady => rw [pollAnswer_of_notReady hchoice] at h; cases h
  | error => rw [pollAnswer_of_error hchoice] at h; cases h

/-- A read that answers a byte answers the stream's next one. -/
theorem nextByte_of_byte (h : p.readAnswer = .byte b) : p.nextByte = some b := by
  cases hchoice : p.readChoice with
  | answer =>
    cases hb : p.nextByte with
    | some c => rw [readAnswer_of_some hchoice hb] at h; cases h; rfl
    | none => rw [readAnswer_of_none hchoice hb] at h; cases h
  | error => rw [readAnswer_of_error hchoice] at h; cases h
  | wait => rw [readAnswer_of_wait hchoice] at h; cases h

/-- `EOF` is answered at the end of the stream alone. -/
theorem nextByte_of_eof (h : p.readAnswer = .eof) : p.nextByte = none := by
  cases hchoice : p.readChoice with
  | answer =>
    cases hb : p.nextByte with
    | some c => rw [readAnswer_of_some hchoice hb] at h; cases h
    | none => rfl
  | error => rw [readAnswer_of_error hchoice] at h; cases h
  | wait => rw [readAnswer_of_wait hchoice] at h; cases h

@[simp] theorem afterPoll_inputEnds (p : Ports) : p.afterPoll.inputEnds = p.inputEnds := by
  unfold Ports.afterPoll; split <;> rfl

@[simp] theorem afterRead_inputEnds (p : Ports) : p.afterRead.inputEnds = p.inputEnds := by
  unfold Ports.afterRead; split <;> rfl

/-- Settles O23: each clause by the lemma of its answer. -/
theorem pollsAndReadsShareOneInputStream : Obligations.PollsAndReadsShareOneInputStream := by
  intro p
  refine ⟨fun b rest => nextByte_of_cons, nextByte_of_ended, nextByte_of_unlisted, fun b => pollAnswer_of_some,
    pollAnswer_of_none, pollAnswer_of_notReady, pollAnswer_of_error, fun b => readAnswer_of_some, readAnswer_of_none,
    readAnswer_of_error, readAnswer_of_wait, fun b h => ?polled, fun b h => ?read, fun h => ?atEnd, nextByte_of_eof,
    fun h => ?notPolled, fun h => ?notRead, afterPoll_inputEnds p, afterRead_inputEnds p⟩
  case polled =>
    obtain ⟨hinput, -, htaken⟩ := afterPoll_avail h
    exact ⟨nextByte_of_avail h, hinput, htaken⟩
  case read =>
    obtain ⟨hinput, -, htaken⟩ := afterRead_byte h
    exact ⟨nextByte_of_byte h, hinput, htaken⟩
  case atEnd =>
    exact ⟨fun b hb => by simp [nextByte_of_avail hb] at h, fun b hb => by simp [nextByte_of_byte hb] at h⟩
  case notPolled =>
    obtain ⟨hinput, -, htaken⟩ := afterPoll_none h
    exact ⟨hinput, htaken⟩
  case notRead =>
    obtain ⟨hinput, -, htaken⟩ := afterRead_none h
    exact ⟨hinput, htaken⟩

end Sys2Proof.Machine
end

section
/-! The poll at KBSR_ADDR (R52): the state that each answer leaves, as a read and as a fetch see it. -/

namespace Sys2Proof.Machine

/-- The state after a poll that found `b`: KBSR and KBDR written (D4). -/
def State.polledByte (s : State) (b : Byte) : State :=
  ((s.setPorts s.ports.afterPoll).setWord kbsrAddr kbsrReady).setWord kbdrAddr (zext16 b)

/-- The state after a poll that found nothing: KBSR cleared. -/
def State.polledNothing (s : State) : State := (s.setPorts s.ports.afterPoll).setWord kbsrAddr 0

/-- The state after a poll that failed: FAULTED(InputError), nothing written (D13). -/
def State.pollFailed (s : State) : State := (s.setPorts s.ports.afterPoll).raise .inputError

theorem kbdrAddr_ne_kbsrAddr : kbdrAddr ≠ kbsrAddr := by decide

theorem zext16_eq_ofNat (b : Byte) : zext16 b = BitVec.ofNat 16 b.toNat := (BitVec.ofNat_toNat 16 b).symm

variable {s : State} {b : Byte}

@[simp] theorem polledByte_read_kbsr (hwf : s.mem.wf = true) : (s.polledByte b).mem.read kbsrAddr = 0x8000 :=
  (read_write_other (write_wf hwf) _ kbdrAddr_ne_kbsrAddr.symm).trans (read_write_self hwf _ _)

@[simp] theorem polledByte_read_kbdr (hwf : s.mem.wf = true) :
    (s.polledByte b).mem.read kbdrAddr = BitVec.ofNat 16 b.toNat :=
  (read_write_self (write_wf hwf) _ _).trans (zext16_eq_ofNat b)

theorem memSameBut_polledByte (hwf : s.mem.wf = true) : MemSameBut [kbsrAddr, kbdrAddr] s (s.polledByte b) :=
  memSameBut_device fun _ hkbsr hkbdr =>
    (read_write_other (write_wf hwf) _ hkbdr).trans (read_write_other hwf _ hkbsr)

@[simp] theorem polledNothing_read_kbsr (hwf : s.mem.wf = true) : s.polledNothing.mem.read kbsrAddr = 0 :=
  read_write_self hwf _ _

theorem memSameBut_polledNothing (hwf : s.mem.wf = true) : MemSameBut [kbsrAddr] s s.polledNothing :=
  fun _ h => read_write_other hwf _ (List.ne_of_not_mem_cons h)

theorem memRead_polledByte (hwf : s.mem.wf = true) (h : s.ports.pollAnswer = .avail b) :
    memRead kbsrAddr s = .ok 0x8000 (s.polledByte b) := by
  have hpoll : pollKeyboard s = .ok () (s.polledByte b) := by simp only [pollKeyboard, h, State.polledByte]
  rw [memRead, if_pos rfl, hpoll, bind_ok, polledByte_read_kbsr hwf]

theorem memRead_polledNothing (hwf : s.mem.wf = true) (h : s.ports.pollAnswer = .notAvail) :
    memRead kbsrAddr s = .ok 0 s.polledNothing := by
  have hpoll : pollKeyboard s = .ok () s.polledNothing := by simp only [pollKeyboard, h, State.polledNothing]
  rw [memRead, if_pos rfl, hpoll, bind_ok, polledNothing_read_kbsr hwf]

theorem memRead_pollFailed (h : s.ports.pollAnswer = .error) : memRead kbsrAddr s = .raised s.pollFailed := by
  have hpoll : pollKeyboard s = .raised s.pollFailed := by simp only [pollKeyboard, h, State.pollFailed]
  rw [memRead, if_pos rfl, hpoll, bind_raised]

/-- A poll that finds nothing, or fails, consumes nothing. -/
theorem afterPoll_input_of_ne (h : ∀ b, s.ports.pollAnswer ≠ .avail b) :
    InputSame s (s.setPorts s.ports.afterPoll) := afterPoll_none h

/-- Settles O22: away from KBSR_ADDR a read is plain; there, each answer leaves its state. -/
theorem memReadPollsOnlyAtTheKeyboardStatus : Obligations.MemReadPollsOnlyAtTheKeyboardStatus := by
  intro s hwf
  refine ⟨fun a ha => memRead_plain ha s, fun b h => ?avail, fun h => ?notAvail, fun h => ?error⟩
  case avail =>
    exact ⟨_, memRead_polledByte hwf h, polledByte_read_kbsr hwf, polledByte_read_kbdr hwf, memSameBut_polledByte hwf,
      fun _ _ => rfl, rfl, rfl, ⟨rfl, rfl⟩, rfl⟩
  case notAvail =>
    exact ⟨_, memRead_polledNothing hwf h, polledNothing_read_kbsr hwf, memSameBut_polledNothing hwf, fun _ _ => rfl,
      rfl, rfl, ⟨rfl, rfl⟩, rfl⟩
  case error =>
    exact ⟨_, memRead_pollFailed h, ⟨rfl, rfl⟩, rfl, fun _ _ => rfl, fun _ _ => rfl, rfl, rfl,
      afterPoll_output s.ports, afterPoll_input_of_ne (by simp [h])⟩

/-! ### The fetch at KBSR_ADDR (R71) -/

/-- KBSR's word after a poll that found nothing is BR with no mask bit; after one that found a byte it is RTI. Neither
does anything. -/
theorem dispatchWord_zero (s : State) : dispatchWord 0 s = .next s :=
  (dispatchWord_of_decode (i := .br false false false 0) (by decide) s).trans
    (exec_br_of_misses (by rw [branchMask_meets]; simp) 0)

theorem dispatchWord_kbsrReady (s : State) : dispatchWord 0x8000 s = .next s :=
  (dispatchWord_of_decode (i := .rti) (by decide) s).trans (exec_rti s)

/-- A fetched word that does nothing leaves the state of its fetch. -/
theorem step_of_memRead_noop {w : Word} {u : State} (hrun : s.runState = .running) (hidle : s.service = .idle)
    (hread : memRead s.pc s = .ok w u) (hnoop : ∀ t, dispatchWord w t = .next t) :
    step s = .next (u.setPc (u.pc + 1)) := by
  rw [step_running_idle hrun hidle, instructionCycle, fetch, hread]
  exact hnoop _

/-- A fetch that faults ends the step. -/
theorem step_of_memRead_raised {u : State} (hrun : s.runState = .running) (hidle : s.service = .idle)
    (hread : memRead s.pc s = .raised u) : step s = .next u := by
  rw [step_running_idle hrun hidle, instructionCycle, fetch, hread]
  rfl

/-- Settles O9: the fetch is the polling read, and what it fetches does nothing. -/
theorem fetchAtTheKeyboardStatusPolls : Obligations.FetchAtTheKeyboardStatusPolls := by
  intro s hwf hrun hidle hpc
  refine ⟨fun h => ?notAvail, fun b h => ?avail, fun h => ?error⟩
  case notAvail =>
    have hstep := step_of_memRead_noop hrun hidle (hpc ▸ memRead_polledNothing hwf h) dispatchWord_zero
    exact ⟨_, hstep, congrArg (· + 1) hpc, polledNothing_read_kbsr hwf, memSameBut_polledNothing hwf, fun _ _ => rfl,
      rfl, ⟨rfl, rfl⟩, afterPoll_output s.ports, afterPoll_input_of_ne (by simp [h])⟩
  case avail =>
    have hstep := step_of_memRead_noop hrun hidle (hpc ▸ memRead_polledByte hwf h) dispatchWord_kbsrReady
    exact ⟨_, hstep, congrArg (· + 1) hpc, polledByte_read_kbsr hwf, polledByte_read_kbdr hwf,
      memSameBut_polledByte hwf, fun _ _ => rfl, rfl, ⟨rfl, rfl⟩, afterPoll_output s.ports, afterPoll_avail h⟩
  case error =>
    have hstep := step_of_memRead_raised hrun hidle (hpc ▸ memRead_pollFailed h)
    exact ⟨_, hstep, hpc, ⟨rfl, rfl⟩, fun _ _ => rfl, fun _ _ => rfl, rfl, afterPoll_output s.ports,
      afterPoll_input_of_ne (by simp [h])⟩

end Sys2Proof.Machine
end

section
/-! ADD, AND, NOT and LEA (R100 to R104, R123): the word each writes, on naturals and integers. -/

namespace Sys2Proof.Machine

theorem ofNat_add_toNat (v w : Word) : BitVec.ofNat 16 (v.toNat + w.toNat) = v + w := by
  rw [BitVec.ofNat_add, BitVec.ofNat_toNat, BitVec.ofNat_toNat, BitVec.setWidth_eq, BitVec.setWidth_eq]

/-- A sign-extended field is its signed value as a word. -/
theorem ofInt_toInt_eq_sext {n : Nat} (v : BitVec n) : BitVec.ofInt 16 v.toInt = sext v := rfl

/-- A word plus a signed field is the sum of the signed values as a word. -/
theorem ofInt_add_toInt {n : Nat} (w : Word) (v : BitVec n) : BitVec.ofInt 16 (w.toInt + v.toInt) = w + sext v := by
  rw [BitVec.ofInt_add, BitVec.ofInt_toInt, ofInt_toInt_eq_sext]

theorem ofNat_sub_toNat (v : Word) : BitVec.ofNat 16 (0xFFFF - v.toNat) = ~~~v := by
  apply BitVec.eq_of_toNat_eq
  rw [BitVec.toNat_not, BitVec.toNat_ofNat]
  omega

/-- Settles O25: each form is the write of its destination. -/
theorem addAndAndWriteTheirResult : Obligations.AddAndAndWriteTheirResult := by
  intro dr sr1 sr2 imm s
  rw [ofNat_add_toNat, ofInt_add_toInt, ofInt_toInt_eq_sext]
  exact ⟨⟨_, rfl, setDest_writesDest s dr _⟩, ⟨_, rfl, setDest_writesDest s dr _⟩, ⟨_, rfl, setDest_writesDest s dr _⟩,
    ⟨_, rfl, setDest_writesDest s dr _⟩⟩

/-- Settles O26: the complement is the difference from 0xFFFF. -/
theorem notWritesTheComplement : Obligations.NotWritesTheComplement := by
  intro dr sr s
  rw [ofNat_sub_toNat]
  exact ⟨_, rfl, setDest_writesDest s dr _⟩

/-- Settles O29: LEA writes its address as a value. -/
theorem leaWritesTheAddress : Obligations.LeaWritesTheAddress := by
  intro dr off s
  rw [ofInt_add_toInt]
  exact ⟨_, rfl, setDest_writesDest s dr (pcRelative9 s off)⟩

end Sys2Proof.Machine
end

section
/-! Loads and stores (R120 to R126) by what their reads answer. -/

namespace Sys2Proof.Machine

variable {s s1 : State} {ea w : Word}

theorem exec_ld (dr : Reg) (off : BitVec 9) (s : State) :
    exec (.ld dr off) s = .next (loadFrom dr (pcRelative9 s off) s) := rfl

theorem exec_ldr (dr base : Reg) (off : BitVec 6) (s : State) :
    exec (.ldr dr base off) s = .next (loadFrom dr (baseOffset6 s base off) s) := rfl

theorem loadFrom_of_ok (dr : Reg) (h : memRead ea s = .ok w s1) : loadFrom dr ea s = s1.setDest dr w := by
  rw [loadFrom, h, andThen_ok]

theorem loadFrom_of_raised (dr : Reg) (h : memRead ea s = .raised s1) : loadFrom dr ea s = s1 := by
  rw [loadFrom, h, andThen_raised]

/-- An instruction that is a load from `ea` writes the word read. -/
theorem exec_loadFrom_of_ok {i : Instr} {dr : Reg} (hexec : exec i s = .next (loadFrom dr ea s))
    (h : memRead ea s = .ok w s1) : ∃ t, exec i s = .next t ∧ WritesDest dr w s1 t :=
  ⟨_, hexec.trans (congrArg _ (loadFrom_of_ok dr h)), setDest_writesDest s1 dr w⟩

theorem exec_loadFrom_of_raised {i : Instr} {dr : Reg} (hexec : exec i s = .next (loadFrom dr ea s))
    (h : memRead ea s = .raised s1) : exec i s = .next s1 :=
  hexec.trans (congrArg _ (loadFrom_of_raised dr h))

/-- Settles O27: LD and LDR are one load from two address forms; away from KBSR_ADDR its read is plain. -/
theorem loadsWriteTheWordRead : Obligations.LoadsWriteTheWordRead := by
  intro dr base off9 off6 s
  have hld := exec_ld dr off9 s
  have hldr := exec_ldr dr base off6 s
  exact ⟨fun h => exec_loadFrom_of_ok hld (memRead_plain h s), fun w s1 => exec_loadFrom_of_ok hld,
    fun s1 => exec_loadFrom_of_raised hld, fun h => exec_loadFrom_of_ok hldr (memRead_plain h s),
    fun w s1 => exec_loadFrom_of_ok hldr, fun s1 => exec_loadFrom_of_raised hldr⟩

/-- LDI whose pointer read answers `ea` is the load from `ea`. -/
theorem exec_ldi_of_ok (dr : Reg) {off : BitVec 9} (h : memRead (pcRelative9 s off) s = .ok ea s1) :
    exec (.ldi dr off) s = .next (loadFrom dr ea s1) := by
  show Host.Outcome.next ((indirect9 s off).andThen _) = _
  rw [indirect9, h, andThen_ok]

theorem exec_ldi_of_raised (dr : Reg) {off : BitVec 9} (h : memRead (pcRelative9 s off) s = .raised s1) :
    exec (.ldi dr off) s = .next s1 := by
  show Host.Outcome.next ((indirect9 s off).andThen _) = _
  rw [indirect9, h, andThen_raised]

/-- Settles O28: the pointer read, then the load from its answer; a fault of either ends LDI there. -/
theorem ldiReadsThroughThePointer : Obligations.LdiReadsThroughThePointer := by
  intro dr off s
  have hloads (ea : Word) (s1 : State) (w : Word) (s2 : State) (hptr : memRead (pcRelative9 s off) s = .ok ea s1)
      (hdata : memRead ea s1 = .ok w s2) : ∃ t, exec (.ldi dr off) s = .next t ∧ WritesDest dr w s2 t :=
    ⟨_, (exec_ldi_of_ok dr hptr).trans (congrArg _ (loadFrom_of_ok dr hdata)), setDest_writesDest s2 dr w⟩
  refine ⟨fun hptr hdata => ?plain, hloads, fun s1 => exec_ldi_of_raised dr, fun ea s1 s2 hptr hdata => ?dataFault⟩
  case plain => exact hloads _ s _ s (memRead_plain hptr s) (memRead_plain hdata s)
  case dataFault => exact (exec_ldi_of_ok dr hptr).trans (congrArg _ (loadFrom_of_raised dr hdata))

theorem exec_str (sr base : Reg) (off : BitVec 6) (s : State) :
    exec (.str sr base off) s = .next (s.setWord (baseOffset6 s base off) (s.reg sr)) := rfl

/-- Settles O31: STR is the store of SR at base plus offset. -/
theorem strStoresTheRegister : Obligations.StrStoresTheRegister := fun sr base off s hwf =>
  ⟨_, exec_str sr base off s, storesAt_setWord hwf (baseOffset6 s base off) (s.reg sr)⟩

/-- STI whose pointer read answers `ea` is the store at `ea`. -/
theorem exec_sti_of_ok (sr : Reg) {off : BitVec 9} (h : memRead (pcRelative9 s off) s = .ok ea s1) :
    exec (.sti sr off) s = .next (s1.setWord ea (s1.reg sr)) := by
  show Host.Outcome.next ((indirect9 s off).andThen _) = _
  rw [indirect9, h, andThen_ok, memWrite_eq_setWord]

theorem exec_sti_of_raised (sr : Reg) {off : BitVec 9} (h : memRead (pcRelative9 s off) s = .raised s1) :
    exec (.sti sr off) s = .next s1 := by
  show Host.Outcome.next ((indirect9 s off).andThen _) = _
  rw [indirect9, h, andThen_raised]

/-- What a read that answers keeps. -/
theorem readKeeps_of_memRead (h : memRead ea s = .ok w s1) : ReadKeeps s s1 := by
  rcases memRead_cases ea s with ⟨s', e, k⟩ | ⟨-, e⟩
  · cases h.symm.trans e
    exact k
  · cases h.symm.trans e

/-- Settles O32: the pointer read keeps SR and canonical memory, and the store follows it; its fault stores nothing. -/
theorem stiStoresThroughThePointer : Obligations.StiStoresThroughThePointer := by
  intro sr off s hwf
  have hstores (ea : Word) (s1 : State) (hptr : memRead (pcRelative9 s off) s = .ok ea s1) :
      ∃ t, exec (.sti sr off) s = .next t ∧ StoresAt ea (s.reg sr) s1 t := by
    have k := readKeeps_of_memRead hptr
    rw [← k.reg sr]
    exact ⟨_, exec_sti_of_ok sr hptr, storesAt_setWord (k.wf hwf) ea (s1.reg sr)⟩
  exact ⟨fun hptr => hstores _ s (memRead_plain hptr s), hstores, fun s1 => exec_sti_of_raised sr⟩

end Sys2Proof.Machine
end

section
/-! BR after a result (R27, R150, D2), JMP, RET and JSRR (R151, R153), and the simple ends of a run (R177, R180). -/

namespace Sys2Proof.Machine

/-- The flag of each class is its own bit of COND (D2): N is bit 2, Z is bit 1, P is bit 0. -/
theorem condOf_bits (v : Word) : ((condOf v).getLsbD 2 = true ↔ v.toInt < 0) ∧
    ((condOf v).getLsbD 1 = true ↔ v.toInt = 0) ∧ ((condOf v).getLsbD 0 = true ↔ 0 < v.toInt) := by
  rw [condOf_eq_signClass, signClass]
  rcases lt_trichotomy v.toInt 0 with hneg | hzero | hpos
  · rw [if_neg hneg.ne, if_pos hneg]
    simp [condN, hneg, hneg.ne, hneg.le]
  · rw [if_pos hzero]
    simp [condZ, hzero]
  · rw [if_neg hpos.ne', if_neg hpos.not_gt]
    simp [condP, hpos, hpos.ne', hpos.le]

/-- Settles O34: the mask meets the class of `v` exactly by the sign of `v`. -/
theorem branchesTestTheSignOfTheLastResult : Obligations.BranchesTestTheSignOfTheLastResult := by
  intro n z p off v s
  have hmeets : branchMask n z p &&& (s.setcc v).cond ≠ 0 ↔
      (n = true ∧ v.toInt < 0) ∨ (z = true ∧ v.toInt = 0) ∨ (p = true ∧ 0 < v.toInt) := by
    obtain ⟨hneg, hzero, hpos⟩ := condOf_bits v
    rw [branchMask_meets, setcc_cond, hneg, hzero, hpos]
  by_cases h : branchMask n z p &&& (s.setcc v).cond ≠ 0
  · refine ⟨_, exec_br_of_meets h off, rfl, rfl, rfl, ?_⟩
    rw [if_pos (hmeets.mp h)]
    rfl
  · refine ⟨_, exec_br_of_misses h off, rfl, rfl, rfl, ?_⟩
    rw [if_neg (mt hmeets.mpr h)]
    rfl

/-- Settles O35: opcode 12's words, and the jump to the register's value. -/
theorem jmpGoesToTheRegister : Obligations.JmpGoesToTheRegister :=
  ⟨fun _ => decode_of_jmp_mask, fun base s =>
    ⟨⟨_, rfl, jumpsTo_setPc (s.reg base) s⟩, ⟨_, rfl, jumpsTo_setPc (s.reg 7) s⟩⟩⟩

theorem exec_jsrr (base : Reg) (s : State) :
    exec (.jsrr base) s = .next ((linkPc s).setPc ((linkPc s).reg base)) := rfl

/-- The base register as JSRR reads it: after the link (D11). -/
theorem linkPc_reg (base : Reg) (s : State) : (linkPc s).reg base = if base = 7 then s.pc else s.reg base := by
  split
  · next h => rw [h]; exact setReg_reg_self s linkReg s.pc
  · next h => exact setReg_reg_other s linkReg base s.pc h

/-- Settles O37: the link, then the jump to the base read after it. -/
theorem jsrrLinksBeforeItReadsTheBase : Obligations.JsrrLinksBeforeItReadsTheBase := by
  intro base s
  refine ⟨_, exec_jsrr base s, setReg_reg_self s linkReg s.pc, ?_⟩
  rw [linkPc_reg]
  exact jumpsTo_linkPc_setPc _ s

theorem status_raise (s : State) (r : FaultReason) : (s.raise r).status = .faulted (faultCode r) r := rfl

/-- Settles O45: `halt` sets the run state alone, and no step leaves it. -/
theorem haltKeepsEverythingElse : Obligations.HaltKeepsEverythingElse := fun s =>
  ⟨rfl, rfl, rfl, rfl, rfl, rfl, rfl, step_of_ended (by simp), rfl, fun r => by simp [status_raise]⟩

/-- After the entry of a TRAP, a service that writes at most the registers `rs`, and neither pc nor memory, leaves the
link in R7. -/
theorem trapFrame_of_entered {rs : List Reg} {s t : State} (hlink : linkReg ∉ rs)
    (hregs : RegsSameBut rs (trapEnter s) t) (hpc : t.pc = s.pc) (hmem : t.mem = s.mem) : TrapFrame rs s t := by
  refine ⟨(hregs linkReg hlink).trans (trapEnter_link s), fun r hr => ?_, hpc, fun a _ => by rw [hmem]⟩
  exact (hregs r (List.not_mem_of_not_mem_cons hr)).trans (trapEnter_reg s r (List.ne_of_not_mem_cons hr))

/-- Settles O47: the link, then the raise. -/
theorem anInvalidVectorFaultsAfterTheLink : Obligations.AnInvalidVectorFaultsAfterTheLink := fun v s =>
  ⟨(trapEnter s).raise (.invalidTrap v), rfl, trapFrame_of_entered List.not_mem_nil (fun _ _ => rfl) rfl rfl, rfl, rfl,
    ⟨rfl, rfl, rfl⟩, ⟨rfl, rfl⟩, rfl⟩

end Sys2Proof.Machine
end

section
/-! Output byte by byte (R213, D14): `outBytes` for a host that accepts every byte, and for one that fails the k-th. -/

namespace Sys2Proof.Machine

/-- The state after the bytes `bs` were accepted. -/
def State.wrote (s : State) (bs : List Byte) : State := s.setPorts (s.ports.afterAccepted bs)

/-- The state after an output byte that the host failed. -/
def State.outputFailed (s : State) : State := (s.setPorts s.ports.afterOut).raise .outputError

/-! ### The host's coming choices -/

@[simp] theorem afterAccepted_nil (p : Ports) : p.afterAccepted [] = p := by
  simp [Ports.afterAccepted]

theorem afterAccepted_append (p : Ports) (bs cs : List Byte) :
    p.afterAccepted (bs ++ cs) = (p.afterAccepted bs).afterAccepted cs := by
  simp [Ports.afterAccepted, Nat.add_assoc]

/-- Accepting one byte is the append of one output transaction. -/
theorem afterAccepted_singleton (p : Ports) (b : Byte) : p.afterAccepted [b] = p.afterOut.append b := by
  simp [Ports.afterAccepted, Ports.afterOut, Ports.append]

/-- The choices after accepted bytes are the later ones. -/
theorem outChoiceAt_afterAccepted (p : Ports) (bs : List Byte) (i : Nat) :
    (p.afterAccepted bs).outChoiceAt i = p.outChoiceAt (bs.length + i) := by
  simp [Ports.outChoiceAt, Ports.afterAccepted, Nat.add_assoc]

theorem accepts_append_iff (p : Ports) (bs : List Byte) (n : Nat) :
    p.Accepts (bs.length + n) ↔ p.Accepts bs.length ∧ (p.afterAccepted bs).Accepts n := by
  simp only [Ports.Accepts, outChoiceAt_afterAccepted]
  refine ⟨fun h => ⟨fun i hi => h i (by omega), fun i hi => h _ (by omega)⟩, fun ⟨h, k⟩ i hi => ?_⟩
  by_cases hlt : i < bs.length
  · exact h i hlt
  · have hk := k (i - bs.length) (by omega)
    rwa [Nat.add_sub_cancel' (by omega)] at hk

/-- A host that fails a byte after `bs` accepts `bs` and fails the next ones there. -/
theorem failsAt_append_iff (p : Ports) (bs : List Byte) (k : Nat) :
    p.FailsAt (bs.length + k) ↔ p.Accepts bs.length ∧ (p.afterAccepted bs).FailsAt k := by
  rw [Ports.FailsAt, Ports.FailsAt, accepts_append_iff, outChoiceAt_afterAccepted, and_assoc]

/-! ### `outBytes` -/

@[simp] theorem outBytes_nil (s : State) : outBytes [] s = .ok () s := rfl

theorem outBytes_cons (b : Byte) (bs : List Byte) (s : State) :
    outBytes (b :: bs) s = (outByte b s).bind fun _ s' => outBytes bs s' := rfl

theorem outBytes_singleton (b : Byte) (s : State) : outBytes [b] s = outByte b s := by
  rw [outBytes_cons]
  rcases outByte_cases b s with ⟨s', e, -⟩ | ⟨s', e, -⟩ <;> rw [e] <;> rfl

theorem outBytes_append (bs cs : List Byte) (s : State) :
    outBytes (bs ++ cs) s = (outBytes bs s).bind fun _ s' => outBytes cs s' := by
  induction bs generalizing s with
  | nil => rfl
  | cons b bs ih =>
    rw [List.cons_append, outBytes_cons, outBytes_cons]
    rcases outByte_cases b s with ⟨s', e, -⟩ | ⟨s', e, -⟩ <;> rw [e]
    · exact ih s'
    · rfl

theorem wrote_append (s : State) (bs cs : List Byte) : s.wrote (bs ++ cs) = (s.wrote bs).wrote cs :=
  congrArg s.setPorts (afterAccepted_append s.ports bs cs)

theorem outBytes_of_accepts {bs : List Byte} {s : State} (h : s.ports.Accepts bs.length) :
    outBytes bs s = .ok () (s.wrote bs) := by
  induction bs generalizing s with
  | nil => rw [State.wrote, afterAccepted_nil]; rfl
  | cons b bs ih =>
    obtain ⟨hfirst, hrest⟩ := (accepts_append_iff s.ports [b] bs.length).mp (by simpa [Nat.add_comm] using h)
    have hchoice : s.ports.outChoice = .accept := outChoiceAt_zero s.ports ▸ hfirst 0 (by simp)
    have hbyte : outByte b s = .ok () (s.wrote [b]) := by
      rw [outByte_accept hchoice, State.wrote, afterAccepted_singleton]
    rw [outBytes_cons, hbyte, bind_ok, ih hrest, ← wrote_append, List.singleton_append]

/-- The bytes before the failing one are written, and the run ends there. -/
theorem outBytes_of_failsAt {bs : List Byte} {s : State} {k : Nat} (hk : k < bs.length) (h : s.ports.FailsAt k) :
    outBytes bs s = .raised (s.wrote (bs.take k)).outputFailed := by
  have hlen : (bs.take k).length = k := List.length_take_of_le hk.le
  rw [← Nat.add_zero k, ← hlen, failsAt_append_iff] at h
  obtain ⟨haccepts, -, hfails⟩ := h
  have hchoice : (s.wrote (bs.take k)).ports.outChoice = .error := (outChoiceAt_zero _).symm.trans hfails
  calc outBytes bs s
      = outBytes (bs.take k ++ bs[k] :: bs.drop (k + 1)) s := by rw [List.cons_getElem_drop_succ, List.take_append_drop]
    _ = .raised (s.wrote (bs.take k)).outputFailed := by
      rw [outBytes_append, outBytes_of_accepts haccepts, bind_ok, outBytes_cons, outByte_error hchoice]
      rfl

/-- Settles O24: all accepted, or the k-th failed after those before it. -/
theorem outputBytesAppearInOrder : Obligations.OutputBytesAppearInOrder := fun _ _ =>
  ⟨outBytes_of_accepts, fun _ hk h =>
    ⟨_, outBytes_of_failsAt hk h, ⟨rfl, rfl⟩, rfl, rfl, rfl, rfl, rfl, rfl, ⟨rfl, rfl, rfl⟩⟩⟩

/-! ### A TRAP that outputs first -/

/-- A TRAP whose output fails after the bytes `bs`: it ends FAULTED(OutputError), the bytes written. -/
theorem trapFrame_outputFailed (bs : List Byte) (s : State) :
    TrapFrame [] s ((trapEnter s).wrote bs).outputFailed :=
  trapFrame_of_entered List.not_mem_nil (fun _ _ => rfl) rfl rfl

/-- A TRAP that begins with the output of `bs` ends at the byte that the host fails, whatever was to follow. -/
theorem trap_of_failsAt {i : Instr} {s : State} {bs : List Byte} {next : Unit → State → State} {k : Nat}
    (hexec : exec i s = .next ((outBytes bs (trapEnter s)).andThen next)) (hk : k < bs.length)
    (hfails : s.ports.FailsAt k) : ∃ t, exec i s = .next t ∧ TrapFrame [] s t ∧ t.cond = s.cond ∧
      t.ports.output = s.ports.output ++ bs.take k ∧ InputSame s t ∧ EndsFaulted .outputError t ∧
      t.service = s.service := by
  refine ⟨((trapEnter s).wrote (bs.take k)).outputFailed, ?_, trapFrame_outputFailed _ s, rfl, rfl, ⟨rfl, rfl, rfl⟩,
    ⟨rfl, rfl⟩, rfl⟩
  rw [hexec, outBytes_of_failsAt (s := trapEnter s) hk hfails, andThen_raised]

/-- The same TRAP goes on when every byte is accepted. -/
theorem trap_of_accepts {i : Instr} {s : State} {bs : List Byte} {next : Unit → State → State}
    (hexec : exec i s = .next ((outBytes bs (trapEnter s)).andThen next)) (haccepts : s.ports.Accepts bs.length) :
    exec i s = .next (next () ((trapEnter s).wrote bs)) := by
  rw [hexec, outBytes_of_accepts (s := trapEnter s) haccepts, andThen_ok]

theorem exec_trapOut (s : State) : exec .trapOut s =
    .next ((outBytes [low8 (s.reg 0)] (trapEnter s)).andThen fun _ s' => s') := by
  rw [outBytes_singleton, ← trapEnter_reg s 0 (by decide)]
  rfl

/-- Settles O40: OUT is the output of one byte. -/
theorem outWritesTheLowByte : Obligations.OutWritesTheLowByte := by
  intro s
  have hfirst : s.ports.outChoiceAt 0 = s.ports.outChoice := outChoiceAt_zero s.ports
  refine ⟨fun h => ?accept, fun h => ?error⟩
  case accept =>
    have haccepts : s.ports.Accepts 1 := fun i hi => by rw [Nat.lt_one_iff.mp hi, hfirst, h]
    exact ⟨_, trap_of_accepts (exec_trapOut s) haccepts, trapFrame_of_entered List.not_mem_nil (fun _ _ => rfl) rfl rfl,
      rfl, rfl, ⟨rfl, rfl, rfl⟩, ⟨rfl, rfl⟩⟩
  case error =>
    have hfails : s.ports.FailsAt 0 := ⟨fun i hi => absurd hi i.not_lt_zero, hfirst.trans h⟩
    simpa using trap_of_failsAt (exec_trapOut s) (by simp) hfails

theorem exec_trapHalt (s : State) : exec .trapHalt s =
    .next ((outBytes Config.haltMessage (trapEnter s)).andThen fun _ s' => (outFlush s').halt) := rfl

/-- Settles O46: the message, then `halt`. -/
theorem haltEndsTheRun : Obligations.HaltEndsTheRun := fun s =>
  ⟨fun h => ⟨_, trap_of_accepts (exec_trapHalt s) h, trapFrame_of_entered List.not_mem_nil (fun _ _ => rfl) rfl rfl,
      rfl, rfl, rfl, ⟨rfl, rfl, rfl⟩, rfl⟩,
    fun _ hk hfails => trap_of_failsAt (exec_trapHalt s) hk hfails⟩

end Sys2Proof.Machine
end

section
/-! The blocking read (R212): GETC, IN, and a core that waits in one of them (R171, R174, R219). -/

namespace Sys2Proof.Machine

/-- The state after an answered read, the service over. -/
def State.readAnswered (s : State) : State := trapReturn (s.setPorts s.ports.afterRead)

section
variable {waiting : Service} {deliver : Byte → State → State} {s : State} {b : Byte}

theorem awaitByte_of_byte (h : s.ports.readAnswer = .byte b) :
    awaitByte waiting deliver s = deliver b s.readAnswered := by
  simp only [awaitByte, h, State.readAnswered]

theorem awaitByte_of_fault (h : s.ports.readAnswer = .eof ∨ s.ports.readAnswer = .error) :
    awaitByte waiting deliver s = s.readAnswered.raise .inputError := by
  rcases h with h | h <;> simp only [awaitByte, h, State.readAnswered]

theorem awaitByte_of_wait (h : s.ports.readAnswer = .wait) :
    awaitByte waiting deliver s = (s.setPorts s.ports.afterRead).setService waiting := by
  simp only [awaitByte, h]

end

theorem inputSame_afterRead {s : State} (h : ∀ b, s.ports.readAnswer ≠ .byte b) :
    InputSame s (s.setPorts s.ports.afterRead) := afterRead_none h

/-- What a read that ends without a byte leaves of the state it was tried in, but for the run state, the report and the
service. -/
structure ReadEmpty (s t : State) : Prop where
  regs : RegsSameBut [] s t
  pc : t.pc = s.pc
  cond : t.cond = s.cond
  mem : t.mem = s.mem
  input : InputSame s t
  output : t.ports.output = s.ports.output

/-- `EOF` or `Error` ends the run, whatever was to be done with a byte. -/
theorem awaitByte_faults (waiting : Service) (deliver : Byte → State → State) {s : State}
    (h : s.ports.readAnswer = .eof ∨ s.ports.readAnswer = .error) :
    ReadEmpty s (awaitByte waiting deliver s) ∧ EndsFaulted .inputError (awaitByte waiting deliver s) ∧
      (awaitByte waiting deliver s).service = .idle := by
  have hnone : ∀ b, s.ports.readAnswer ≠ .byte b := fun b hb => by simp [hb] at h
  rw [awaitByte_of_fault h]
  exact ⟨⟨fun _ _ => rfl, rfl, rfl, rfl, inputSame_afterRead hnone, afterRead_output s.ports⟩, ⟨rfl, rfl⟩, rfl⟩

/-- With no answer the core waits. -/
theorem awaitByte_waits (waiting : Service) (deliver : Byte → State → State) {s : State}
    (h : s.ports.readAnswer = .wait) :
    ReadEmpty s (awaitByte waiting deliver s) ∧ (awaitByte waiting deliver s).runState = s.runState ∧
      (awaitByte waiting deliver s).service = waiting := by
  rw [awaitByte_of_wait h]
  exact ⟨⟨fun _ _ => rfl, rfl, rfl, rfl, inputSame_afterRead (by simp [h]), afterRead_output s.ports⟩, rfl, rfl⟩

/-- A byte delivered to R0, the bytes `echo` written before it. -/
structure ByteDelivered (b : Byte) (echo : List Byte) (s t : State) : Prop where
  value : t.reg 0 = BitVec.ofNat 16 b.toNat
  regs : RegsSameBut [0] s t
  pc : t.pc = s.pc
  cond : t.cond = if Config.trapInSetsCond then signClass (BitVec.ofNat 16 b.toNat) else s.cond
  mem : t.mem = s.mem
  input : InputTakesOne s t
  output : t.ports.output = s.ports.output ++ echo
  runState : t.runState = s.runState
  service : t.service = .idle

/-- The write of R0 after the read of a byte, in a state `u` that the echo may have come to meanwhile. -/
theorem byteDelivered_setInput {b : Byte} {echo : List Byte} {s u : State} (h : s.ports.readAnswer = .byte b)
    (hu : OutKeeps s.readAnswered u) (hends : u.ports.inputEnds = s.readAnswered.ports.inputEnds)
    (hrun : u.runState = s.runState) (houtput : u.ports.output = s.ports.output ++ echo) :
    ByteDelivered b echo s (u.setInput (zext16 b)) where
  value := by rw [setInput_reg_zero, zext16_eq_ofNat]
  regs r hr := (setInput_reg_other u r _ (List.ne_of_not_mem_cons hr)).trans (hu.reg r)
  pc := (setInput_pc u _).trans hu.pc
  cond := by rw [setInput_cond, zext16_eq_ofNat, hu.cond]; rfl
  mem := (setInput_mem u _).trans hu.mem
  input := by
    obtain ⟨hinput, hsame, htaken⟩ := afterRead_byte h
    rw [InputTakesOne, setInput_ports]
    exact ⟨hu.input.trans hinput, hends.trans hsame, hu.taken.trans htaken⟩
  output := by rw [setInput_ports, houtput]
  runState := (setInput_runState u _).trans hrun
  service := (setInput_service u _).trans hu.service

theorem getcService_of_byte {b : Byte} {s : State} (h : s.ports.readAnswer = .byte b) :
    ByteDelivered b [] s (getcService s) := by
  rw [getcService, awaitByte_of_byte h]
  exact byteDelivered_setInput h (.refl _) rfl rfl
    ((afterRead_output s.ports).trans (List.append_nil s.ports.output).symm)

theorem inService_of_echo {b : Byte} {s : State} (h : s.ports.readAnswer = .byte b)
    (hecho : s.ports.afterRead.outChoice = .accept) : ByteDelivered b [b] s (inService s) := by
  rw [inService, awaitByte_of_byte h, echoByte, outByte_accept (s := s.readAnswered) hecho, andThen_ok]
  refine byteDelivered_setInput h ⟨rfl, rfl, rfl, rfl, rfl, rfl, rfl, [b], rfl⟩ rfl rfl ?_
  exact congrArg (· ++ [b]) (afterRead_output s.ports)

/-- A failed echo: the byte consumed, R0 as it was, FAULTED(OutputError) (D23). -/
structure EchoFailed (s t : State) : Prop where
  regs : RegsSameBut [] s t
  pc : t.pc = s.pc
  cond : t.cond = s.cond
  mem : t.mem = s.mem
  input : InputTakesOne s t
  output : t.ports.output = s.ports.output
  ends : EndsFaulted .outputError t
  service : t.service = .idle

theorem inService_of_echoFailed {b : Byte} {s : State} (h : s.ports.readAnswer = .byte b)
    (hecho : s.ports.afterRead.outChoice = .error) : EchoFailed s (inService s) := by
  rw [inService, awaitByte_of_byte h, echoByte, outByte_error (s := s.readAnswered) hecho, andThen_raised]
  exact ⟨fun _ _ => rfl, rfl, rfl, rfl, afterRead_byte h, afterRead_output s.ports, ⟨rfl, rfl⟩, rfl⟩

theorem exec_trapGetc (s : State) : exec .trapGetc s = .next (getcService (trapEnter s)) := rfl

/-- Settles O39: the link, then the read's answer. -/
theorem getcReadsOneByte : Obligations.GetcReadsOneByte := by
  intro s
  refine ⟨fun b h => ?byte, fun h => ?fault, fun h => ?wait⟩
  case byte =>
    have k := getcService_of_byte (s := trapEnter s) h
    exact ⟨_, exec_trapGetc s, trapFrame_of_entered (by decide) k.regs k.pc k.mem, k.value, k.cond, k.input,
      k.output.trans (List.append_nil _), k.runState, k.service⟩
  case fault =>
    obtain ⟨k, hends, hservice⟩ := awaitByte_faults .getc deliverByte (s := trapEnter s) h
    exact ⟨_, exec_trapGetc s, trapFrame_of_entered List.not_mem_nil k.regs k.pc k.mem, k.cond, k.input, k.output,
      hends, hservice⟩
  case wait =>
    obtain ⟨k, hrun, hservice⟩ := awaitByte_waits .getc deliverByte (s := trapEnter s) h
    exact ⟨_, exec_trapGetc s, trapFrame_of_entered List.not_mem_nil k.regs k.pc k.mem, k.cond, k.input, k.output,
      hrun, hservice⟩

theorem exec_trapIn (s : State) : exec .trapIn s =
    .next ((outBytes Config.inPrompt (trapEnter s)).andThen fun _ s' => inService s') := rfl

/-- Settles O43: the link and the prompt, then the read's answer and the echo's. -/
theorem inPromptsReadsAndEchoes : Obligations.InPromptsReadsAndEchoes := by
  intro s
  refine ⟨fun haccepts => ?prompted, fun k hk hfails => trap_of_failsAt (exec_trapIn s) hk hfails⟩
  have hexec := trap_of_accepts (exec_trapIn s) haccepts
  refine ⟨fun b h => ⟨fun hecho => ?echo, fun hecho => ?echoFails⟩, fun h => ?fault, fun h => ?wait⟩
  case echo =>
    have k := inService_of_echo (s := (trapEnter s).wrote Config.inPrompt) h hecho
    exact ⟨_, hexec, trapFrame_of_entered (by decide) k.regs k.pc k.mem, k.value, k.cond, k.output, k.input, k.runState,
      k.service⟩
  case echoFails =>
    have k := inService_of_echoFailed (s := (trapEnter s).wrote Config.inPrompt) h hecho
    exact ⟨_, hexec, trapFrame_of_entered List.not_mem_nil k.regs k.pc k.mem, k.cond, k.output, k.input, k.ends,
      k.service⟩
  case fault =>
    obtain ⟨k, hends, hservice⟩ :=
      awaitByte_faults .inRead echoByte (s := (trapEnter s).wrote Config.inPrompt) h
    exact ⟨_, hexec, trapFrame_of_entered List.not_mem_nil k.regs k.pc k.mem, k.cond, k.output, k.input, hends,
      hservice⟩
  case wait =>
    obtain ⟨k, hrun, hservice⟩ := awaitByte_waits .inRead echoByte (s := (trapEnter s).wrote Config.inPrompt) h
    exact ⟨_, hexec, trapFrame_of_entered List.not_mem_nil k.regs k.pc k.mem, k.cond, k.output, k.input, hrun,
      hservice⟩

theorem step_of_getc {s : State} (hrun : s.runState = .running) (h : s.service = .getc) :
    step s = .next (getcService s) := by
  rw [step_running_service hrun (by simp [h]), resumeService, h]

theorem step_of_inRead {s : State} (hrun : s.runState = .running) (h : s.service = .inRead) :
    step s = .next (inService s) := by
  rw [step_running_service hrun (by simp [h]), resumeService, h]

/-- The step of a core that waits in GETC or IN is the read, tried again. -/
theorem step_of_waiting {s : State} (hrun : s.runState = .running) (h : s.service = .getc ∨ s.service = .inRead) :
    ∃ deliver, step s = .next (awaitByte s.service deliver s) := by
  rcases h with h | h
  · exact ⟨deliverByte, by rw [step_of_getc hrun h, h]; rfl⟩
  · exact ⟨echoByte, by rw [step_of_inRead hrun h, h]; rfl⟩

/-- Settles O48: the step is the read tried again, and its answers are those of GETC and IN. -/
theorem aWaitingCoreOnlyWaits : Obligations.AWaitingCoreOnlyWaits := by
  intro s hrun
  refine ⟨fun hwaiting h => ?wait, fun hwaiting h => ?fault, fun b hgetc h => ?getc, fun b hin h hecho => ?echo,
    fun b hin h hecho => ?echoFails⟩
  case wait =>
    obtain ⟨deliver, hstep⟩ := step_of_waiting hrun hwaiting
    obtain ⟨k, hsame, hservice⟩ := awaitByte_waits s.service deliver h
    exact ⟨_, hstep, k.regs, k.pc, k.cond, fun a _ => by rw [k.mem], ⟨hsame, hservice⟩, k.input, k.output⟩
  case fault =>
    obtain ⟨deliver, hstep⟩ := step_of_waiting hrun hwaiting
    obtain ⟨k, hends, hservice⟩ := awaitByte_faults s.service deliver h
    exact ⟨_, hstep, k.regs, k.pc, k.cond, fun a _ => by rw [k.mem], k.input, k.output, hends, hservice⟩
  case getc =>
    have k := getcService_of_byte h
    exact ⟨_, step_of_getc hrun hgetc, k.value, k.regs, k.pc, k.cond, fun a _ => by rw [k.mem], k.input,
      k.output.trans (List.append_nil _), k.runState.trans hrun, k.service⟩
  case echo =>
    have k := inService_of_echo h hecho
    exact ⟨_, step_of_inRead hrun hin, k.value, k.regs, k.pc, k.cond, fun a _ => by rw [k.mem], k.input, k.output,
      k.runState.trans hrun, k.service⟩
  case echoFails =>
    have k := inService_of_echoFailed h hecho
    exact ⟨_, step_of_inRead hrun hin, k.regs, k.pc, k.cond, fun a _ => by rw [k.mem], k.input, k.output, k.ends,
      k.service⟩

end Sys2Proof.Machine
end

section
/-! The string loop of PUTS and PUTSP (R173, R175): words off KBSR_ADDR are so many bytes of output, and the word at
KBSR_ADDR is a poll's. -/

namespace Sys2Proof.Machine

/-! ### Words in a row -/

theorem add_ofNat_succ (a : Word) (i : Nat) : a + BitVec.ofNat 16 (i + 1) = a + 1 + BitVec.ofNat 16 i := by
  rw [Nat.add_comm i 1, BitVec.ofNat_add, BitVec.add_assoc]
  rfl

/-- Fewer than 65536 addresses in a row do not meet. -/
theorem add_ofNat_ne {a : Word} {i n : Nat} (hi : i < n) (hn : n < 65536) :
    a + BitVec.ofNat 16 i ≠ a + BitVec.ofNat 16 n := by
  intro h
  have hmod := congrArg BitVec.toNat (BitVec.add_right_inj a |>.mp h)
  rw [BitVec.toNat_ofNat, BitVec.toNat_ofNat, Nat.mod_eq_of_lt (hi.trans hn), Nat.mod_eq_of_lt hn] at hmod
  omega

theorem words_succ (m : Memory) (a : Word) (n : Nat) : m.words a (n + 1) = m.read a :: m.words (a + 1) n := by
  simp only [Memory.words, List.range_succ_eq_map, List.map_cons, List.map_map]
  refine congrArg₂ List.cons (by simp) (List.map_congr_left fun i _ => ?_)
  exact congrArg m.read (add_ofNat_succ a i)

@[simp] theorem length_words (m : Memory) (a : Word) (n : Nat) : (m.words a n).length = n := by
  simp [Memory.words]

theorem take_words (m : Memory) (a : Word) {k n : Nat} (h : k ≤ n) : (m.words a n).take k = m.words a k := by
  rw [Memory.words, Memory.words, ← List.map_take, List.take_range, Nat.min_eq_left h]

/-- PUTS's bytes of a string, one of each word. -/
theorem flatMap_lowByte (ws : List Word) : ws.flatMap lowByte = ws.map fun w => w.extractLsb 7 0 :=
  List.map_eq_flatMap.symm

/-! ### The loop -/

/-- Output that is followed by two services alike from every state it can answer is followed alike. -/
theorem outBytes_andThen_congr {bs : List Byte} {s : State} {k l : Unit → State → State}
    (h : ∀ s', OutKeeps s s' → k () s' = l () s') : (outBytes bs s).andThen k = (outBytes bs s).andThen l := by
  rcases outBytes_cases bs s with ⟨s', e, keeps, -⟩ | ⟨s', e, -⟩ <;> rw [e]
  · exact h s' keeps
  · rfl

theorem bind_andThen {α β : Type} (r : Result α) (k : α → State → Result β) (l : β → State → State) :
    (r.bind k).andThen l = r.andThen fun a s => (k a s).andThen l := by
  cases r <;> rfl

variable {put : Word → State → Result Unit} {inside : Word → Service} {f : Word → List Byte}

theorem stringLoop_succ (fuel : Nat) (a : Word) (s : State) : stringLoop put inside (fuel + 1) a s =
    (memRead a s).andThen fun w s' =>
      if w = 0 then s' else (put w s').andThen fun _ s'' => stringLoop put inside fuel (a + 1) s'' := rfl

/-- A zero word ends the loop. -/
theorem stringLoop_of_zero {a : Word} {s s1 : State} (h : memRead a s = .ok 0 s1) (fuel : Nat) :
    stringLoop put inside (fuel + 1) a s = s1 := by
  rw [stringLoop_succ, h, andThen_ok, if_pos rfl]

/-- Any other word is output, and the loop goes on. -/
theorem stringLoop_of_ne_zero (hput : ∀ w s, put w s = outBytes (f w) s) {a w : Word} {s s1 : State}
    (h : memRead a s = .ok w s1) (hw : w ≠ 0) (fuel : Nat) : stringLoop put inside (fuel + 1) a s =
      (outBytes (f w) s1).andThen fun _ s' => stringLoop put inside fuel (a + 1) s' := by
  rw [stringLoop_succ, h, andThen_ok, if_neg hw, hput]

theorem stringLoop_of_raised {a : Word} {s s1 : State} (h : memRead a s = .raised s1) (fuel : Nat) :
    stringLoop put inside (fuel + 1) a s = s1 := by
  rw [stringLoop_succ, h, andThen_raised]

/-- `n` words that are not zero, off KBSR_ADDR, are the output of their bytes; then the loop goes on at the next one. -/
theorem stringLoop_words (hput : ∀ w s, put w s = outBytes (f w) s) (n fuel : Nat) (a : Word) (s : State)
    (hplain : ∀ i, i < n → a + BitVec.ofNat 16 i ≠ kbsrAddr)
    (hword : ∀ i, i < n → s.mem.read (a + BitVec.ofNat 16 i) ≠ 0) :
    stringLoop put inside (n + fuel) a s = (outBytes ((s.mem.words a n).flatMap f) s).andThen fun _ s' =>
      stringLoop put inside fuel (a + BitVec.ofNat 16 n) s' := by
  induction n generalizing a s with
  | zero => simp [Memory.words]
  | succ n ih =>
    have hplain0 : a ≠ kbsrAddr := by simpa using hplain 0 (by omega)
    have hword0 : s.mem.read a ≠ 0 := by simpa using hword 0 (by omega)
    rw [Nat.succ_add, stringLoop_of_ne_zero hput (memRead_plain hplain0 s) hword0, words_succ, List.flatMap_cons,
      outBytes_append, bind_andThen, add_ofNat_succ]
    refine outBytes_andThen_congr fun s1 keeps => ?_
    rw [← keeps.mem]
    refine ih (a + 1) s1 (fun i hi => ?_) (fun i hi => ?_)
    · rw [← add_ofNat_succ]
      exact hplain (i + 1) (by omega)
    · rw [← add_ofNat_succ, keeps.mem]
      exact hword (i + 1) (by omega)

/-- A whole string off KBSR_ADDR is the output of its bytes: a lap of memory is longer than it. -/
theorem stringLoop_holdsString (hput : ∀ w s, put w s = outBytes (f w) s) {n : Nat} {a : Word} {s : State}
    (h : s.mem.HoldsString a n) : stringLoop put inside stringLap a s =
      (outBytes ((s.mem.words a n).flatMap f) s).andThen fun _ s' => s' := by
  obtain ⟨hn, hplain, hword, hzero⟩ := h
  rw [show stringLap = n + (65535 - n + 1) by simp only [stringLap]; omega,
    stringLoop_words hput n _ a s (fun i hi => hplain i hi.le) hword]
  refine outBytes_andThen_congr fun s1 keeps => stringLoop_of_zero ?_ _
  rw [memRead_plain (hplain n le_rfl), keeps.mem, hzero]

/-- The loop leaves its service in a core that runs on only after a zero word: with none read it goes on (R173). -/
theorem stringLoop_read_zero (hput : ∀ w s, put w s = outBytes (f w) s) (hinside : ∀ a, inside a ≠ .idle)
    (fuel : Nat) (a : Word) (s : State) (hidle : (stringLoop put inside fuel a s).service = .idle)
    (hrun : (stringLoop put inside fuel a s).runState = .running) :
    ∃ b, (stringLoop put inside fuel a s).mem.read b = 0 := by
  induction fuel generalizing a s with
  | zero => exact absurd hidle (hinside a)
  | succ n ih =>
    rcases memRead_cases a s with ⟨s1, e, -⟩ | ⟨-, e⟩
    · by_cases hw : s1.mem.read a = 0
      · rw [hw] at e
        rw [stringLoop_of_zero e]
        exact ⟨a, hw⟩
      · rw [stringLoop_of_ne_zero hput e hw] at hidle hrun ⊢
        rcases outBytes_cases (f (s1.mem.read a)) s1 with ⟨s2, e2, -⟩ | ⟨s2, e2, -, hfault, -⟩ <;>
          rw [e2] at hidle hrun ⊢
        · exact ih (a + 1) s2 hidle hrun
        · simp [hfault] at hrun
    · rw [stringLoop_of_raised e] at hrun
      cases hrun

/-- The state left unfinished after no word is the state itself with its service. -/
theorem trapReturn_setService {s : State} (h : s.service = .idle) (v : Service) : trapReturn (s.setService v) = s := by
  cases s
  cases h
  rfl

/-- The loop over `m + n` words: over `m`, and where these leave it unfinished at `b`, over `n` more from `b`. -/
theorem stringLoop_add (hput : ∀ w s, put w s = outBytes (f w) s) (m n : Nat) (a : Word) (s : State)
    (h : s.service = .idle) :
    (∃ b, (stringLoop put inside m a s).service = inside b ∧
      stringLoop put inside (m + n) a s = stringLoop put inside n b (trapReturn (stringLoop put inside m a s))) ∨
    ((stringLoop put inside m a s).service = .idle ∧
      stringLoop put inside (m + n) a s = stringLoop put inside m a s) := by
  induction m generalizing a s with
  | zero =>
    refine .inl ⟨a, rfl, ?_⟩
    rw [stringLoop, trapReturn_setService h, Nat.zero_add]
  | succ m ih =>
    rw [Nat.succ_add]
    rcases memRead_cases a s with ⟨s1, e, keeps⟩ | ⟨-, e⟩
    · have hidle := keeps.service.trans h
      by_cases hw : s1.mem.read a = 0
      · rw [hw] at e
        rw [stringLoop_of_zero e, stringLoop_of_zero e]
        exact .inr ⟨hidle, rfl⟩
      · rw [stringLoop_of_ne_zero hput e hw, stringLoop_of_ne_zero hput e hw]
        rcases outBytes_cases (f (s1.mem.read a)) s1 with ⟨s2, e2, keeps2, -⟩ | ⟨s2, e2, keeps2, -⟩ <;> rw [e2]
        · exact ih (a + 1) s2 (keeps2.service.trans hidle)
        · exact .inr ⟨keeps2.service.trans hidle, rfl⟩
    · rw [stringLoop_of_raised e, stringLoop_of_raised e]
      exact .inr ⟨h, rfl⟩

end Sys2Proof.Machine
end

section
/-! PUTS and PUTSP (R173, R175, R179): what the two services share, and their obligations. -/

namespace Sys2Proof.Machine

/-- A zero word right after KBSR_ADDR ends the string, in every state that has the memory of a polled byte: the string
before it was shorter than a lap, since that word is not one of its own. -/
theorem stringLoop_after_kbsr {s u : State} {n : Nat} (hn : n < 65536)
    (hkbsr : s.reg 0 + BitVec.ofNat 16 n = kbsrAddr)
    (hword : ∀ i, i < n → s.mem.read (s.reg 0 + BitVec.ofNat 16 i) ≠ 0) (hzero : s.mem.read (kbsrAddr + 1) = 0)
    (hmem : MemSameBut [kbsrAddr, kbdrAddr] s u)
    (put : Word → State → Result Unit) (inside : Word → Service) :
    stringLoop put inside (65535 - n) (kbsrAddr + 1) u = u := by
  have hshort : n ≠ 65535 := by
    rintro rfl
    refine hword 0 (by omega) ?_
    rw [← hzero, ← hkbsr, BitVec.add_assoc]
    rfl
  have hread : u.mem.read (kbsrAddr + 1) = 0 := (hmem _ (by decide)).trans hzero
  rw [show 65535 - n = 65534 - n + 1 by omega]
  exact stringLoop_of_zero (hread ▸ memRead_plain (by decide) u) _

/-- A string service: the instruction `call` runs the loop from R0, and a core `inside` it goes on with the loop. -/
structure StringService (call : Instr) (put : Word → State → Result Unit) (inside : Word → Service)
    (bytesOf : Word → List Byte) : Prop where
  put_eq (w : Word) (s : State) : put w s = outBytes (bytesOf w) s
  exec_eq (s : State) : exec call s = .next (stringLoop put inside stringLap (s.reg 0) (trapEnter s))
  step_eq {s : State} {a : Word} : s.runState = .running → s.service = inside a →
    step s = .next (stringLoop put inside stringLap a (trapReturn s))
  inside_ne (a : Word) : inside a ≠ .idle

theorem putsIsStringService : StringService .trapPuts putWord .puts lowByte where
  put_eq := putWord_eq
  exec_eq s := by rw [← trapEnter_reg s 0 (by decide)]; rfl
  step_eq hrun h := by rw [step_running_service hrun (by simp [h]), resumeService, h]; rfl
  inside_ne _ := nofun

theorem putspIsStringService : StringService .trapPutsp putPackedWord .putsp packedBytes where
  put_eq := putPackedWord_eq
  exec_eq s := by rw [← trapEnter_reg s 0 (by decide)]; rfl
  step_eq hrun h := by rw [step_running_service hrun (by simp [h]), resumeService, h]; rfl
  inside_ne _ := nofun

namespace StringService

variable {call : Instr} {put : Word → State → Result Unit} {inside : Word → Service} {bytesOf : Word → List Byte}
  (H : StringService call put inside bytesOf)
include H

/-- Over a string off KBSR_ADDR the instruction is the output of its bytes. -/
theorem exec_holdsString {s : State} {n : Nat} (h : s.mem.HoldsString (s.reg 0) n) : exec call s =
    .next ((outBytes ((s.mem.words (s.reg 0) n).flatMap bytesOf) (trapEnter s)).andThen fun _ s' => s') :=
  (H.exec_eq s).trans (congrArg _ (stringLoop_holdsString (s := trapEnter s) H.put_eq h))

/-- That output accepted: the string written, and all else as it was but x[7]. -/
theorem exec_of_accepts {s : State} {n : Nat} (h : s.mem.HoldsString (s.reg 0) n)
    (haccepts : s.ports.Accepts ((s.mem.words (s.reg 0) n).flatMap bytesOf).length) :
    ∃ t, exec call s = .next t ∧ TrapFrame [] s t ∧ t.cond = s.cond ∧
      t.ports.output = s.ports.output ++ (s.mem.words (s.reg 0) n).flatMap bytesOf ∧ InputSame s t ∧ RunSame s t :=
  ⟨_, trap_of_accepts (H.exec_holdsString h) haccepts,
    trapFrame_of_entered List.not_mem_nil (fun _ _ => rfl) rfl rfl, rfl, rfl, ⟨rfl, rfl, rfl⟩, ⟨rfl, rfl⟩⟩

/-- `n` words up to KBSR_ADDR: their bytes, then the loop at KBSR_ADDR. -/
theorem exec_up_to_kbsr {s : State} {n : Nat} (hn : n < 65536) (hkbsr : s.reg 0 + BitVec.ofNat 16 n = kbsrAddr)
    (hword : ∀ i, i < n → s.mem.read (s.reg 0 + BitVec.ofNat 16 i) ≠ 0) : exec call s =
    .next ((outBytes ((s.mem.words (s.reg 0) n).flatMap bytesOf) (trapEnter s)).andThen fun _ s' =>
      stringLoop put inside (65535 - n + 1) kbsrAddr s') := by
  have hplain : ∀ i, i < n → s.reg 0 + BitVec.ofNat 16 i ≠ kbsrAddr := fun i hi => hkbsr ▸ add_ofNat_ne hi hn
  rw [H.exec_eq, show stringLap = n + (65535 - n + 1) by simp only [stringLap]; omega,
    stringLoop_words H.put_eq n _ _ (trapEnter s) hplain hword, hkbsr]
  rfl

/-- The poll that finds a byte reads the word 0x8000. -/
theorem stringLoop_polledByte {u : State} {b : Byte} (hwf : u.mem.wf = true) (h : u.ports.pollAnswer = .avail b)
    (fuel : Nat) : stringLoop put inside (fuel + 1) kbsrAddr u =
      (outBytes (bytesOf 0x8000) (u.polledByte b)).andThen fun _ s' => stringLoop put inside fuel (kbsrAddr + 1) s' :=
  stringLoop_of_ne_zero H.put_eq (memRead_polledByte hwf h) (by decide) fuel

/-- The string that runs into KBSR_ADDR, for either service. -/
theorem stringPolls : StringPolls call bytesOf (stringLoop put inside) := by
  rintro s n bs p hwf hn hkbsr hword rfl rfl
  have hexec := H.exec_up_to_kbsr hn hkbsr hword
  generalize (s.mem.words (s.reg 0) n).flatMap bytesOf = bs at hexec ⊢
  have hentered : RegsSameBut [7] s (trapEnter s) := fun r hr => trapEnter_reg s r (List.ne_of_not_mem_cons hr)
  refine ⟨fun k hk hfails => trap_of_failsAt hexec hk hfails, fun haccepts h => ?notAvail, fun haccepts h => ?error,
    fun b haccepts h => ?avail⟩
  case notAvail =>
    have hend := stringLoop_of_zero (put := put) (inside := inside)
      (memRead_polledNothing (s := (trapEnter s).wrote bs) hwf h) (65535 - n)
    exact ⟨_, (trap_of_accepts hexec haccepts).trans (congrArg _ hend), trapEnter_link s, hentered, rfl, rfl,
      polledNothing_read_kbsr (s := (trapEnter s).wrote bs) hwf,
      memSameBut_polledNothing (s := (trapEnter s).wrote bs) hwf, afterPoll_output _,
      afterPoll_input_of_ne (s := (trapEnter s).wrote bs) (by simp [State.wrote, h]), ⟨rfl, rfl⟩⟩
  case error =>
    have hend := stringLoop_of_raised (put := put) (inside := inside)
      (memRead_pollFailed (s := (trapEnter s).wrote bs) h) (65535 - n)
    exact ⟨_, (trap_of_accepts hexec haccepts).trans (congrArg _ hend),
      trapFrame_of_entered List.not_mem_nil (fun _ _ => rfl) rfl rfl, rfl, afterPoll_output _,
      afterPoll_input_of_ne (s := (trapEnter s).wrote bs) (by simp [State.wrote, h]), ⟨rfl, rfl⟩, rfl⟩
  case avail =>
    have hgoes := H.stringLoop_polledByte (u := (trapEnter s).wrote bs) hwf h (65535 - n)
    have hpolled := (trap_of_accepts hexec haccepts).trans (congrArg _ hgoes)
    have hmem : MemSameBut [kbsrAddr, kbdrAddr] s (((trapEnter s).wrote bs).polledByte b) :=
      memSameBut_polledByte (s := (trapEnter s).wrote bs) hwf
    have houtput (cs : List Byte) :
        (s.ports.afterAccepted bs).afterPoll.output ++ cs = s.ports.output ++ bs ++ cs := by
      rw [afterPoll_output]
      rfl
    refine ⟨fun hbytes => ?goesOn, fun k hk hfails => ?fails⟩
    case goesOn =>
      rw [outBytes_of_accepts (s := ((trapEnter s).wrote bs).polledByte b) hbytes, andThen_ok] at hpolled
      have hends (hzero : s.mem.read (kbsrAddr + 1) = 0) :=
        stringLoop_after_kbsr (u := (((trapEnter s).wrote bs).polledByte b).wrote (bytesOf 0x8000)) hn hkbsr hword
          hzero hmem put inside
      exact ⟨_, hpolled, fun hzero => hpolled.trans (congrArg _ (hends hzero)),
        trapEnter_link s, hentered, rfl, rfl, polledByte_read_kbsr (s := (trapEnter s).wrote bs) hwf,
        polledByte_read_kbdr (s := (trapEnter s).wrote bs) hwf, hmem, rfl, houtput _, afterPoll_avail h, ⟨rfl, rfl⟩⟩
    case fails =>
      rw [outBytes_of_failsAt (s := ((trapEnter s).wrote bs).polledByte b) hk hfails, andThen_raised] at hpolled
      exact ⟨_, hpolled, trapEnter_link s, hentered, rfl, rfl,
        polledByte_read_kbsr (s := (trapEnter s).wrote bs) hwf, polledByte_read_kbdr (s := (trapEnter s).wrote bs) hwf,
        hmem, houtput _, afterPoll_avail h, ⟨rfl, rfl⟩, rfl⟩

/-- The step of a core inside the service, for either service. -/
theorem stringGoesOn : StringGoesOn inside call bytesOf := by
  refine ⟨?overString, fun s t a hrun hin hstep hidle htrun => ?fromInside, fun s t _ _ hexec hidle htrun => ?fromCall⟩
  case overString =>
    rintro s a n bs hrun hin hstring rfl
    have hstep : step s =
        .next ((outBytes ((s.mem.words a n).flatMap bytesOf) (trapReturn s)).andThen fun _ s' => s') :=
      (H.step_eq hrun hin).trans (congrArg _ (stringLoop_holdsString (s := trapReturn s) H.put_eq hstring))
    refine ⟨fun haccepts => ?_, fun k hk hfails => ?_⟩
    · rw [outBytes_of_accepts (s := trapReturn s) haccepts, andThen_ok] at hstep
      exact ⟨_, hstep, fun _ _ => rfl, rfl, rfl, fun _ _ => rfl, rfl, ⟨rfl, rfl, rfl⟩, hrun, rfl⟩
    · rw [outBytes_of_failsAt (s := trapReturn s) hk hfails, andThen_raised] at hstep
      exact ⟨_, hstep, fun _ _ => rfl, rfl, rfl, fun _ _ => rfl, rfl, ⟨rfl, rfl, rfl⟩, ⟨rfl, rfl⟩, rfl⟩
  case fromInside =>
    obtain rfl := Host.Outcome.next.inj ((H.step_eq hrun hin).symm.trans hstep)
    exact stringLoop_read_zero H.put_eq H.inside_ne _ _ _ hidle htrun
  case fromCall =>
    obtain rfl := Host.Outcome.next.inj ((H.exec_eq s).symm.trans hexec)
    exact stringLoop_read_zero H.put_eq H.inside_ne _ _ _ hidle htrun

end StringService

/-- Settles O41: PUTS's string is one byte for each word. -/
theorem putsWritesTheString : Obligations.PutsWritesTheString := by
  intro s n h
  have hlen : ((s.mem.words (s.reg 0) n).flatMap lowByte).length = n := by simp [flatMap_lowByte]
  refine ⟨fun haccepts => ?accepted, fun k hk hfails => ?failed⟩
  case accepted =>
    have hexec := putsIsStringService.exec_of_accepts h (hlen.symm ▸ haccepts)
    rwa [flatMap_lowByte] at hexec
  case failed =>
    have hexec := trap_of_failsAt (putsIsStringService.exec_holdsString h) (hlen.symm ▸ hk) hfails
    rwa [flatMap_lowByte, ← List.map_take, take_words _ _ hk.le] at hexec

/-- Settles O42, for each of the two string services. -/
theorem putsPollsAtTheKeyboardStatus : Obligations.PutsPollsAtTheKeyboardStatus :=
  ⟨putsIsStringService.stringPolls, putspIsStringService.stringPolls⟩

/-- Settles O44: the string service with PUTSP's bytes. -/
theorem putspWritesThePackedString : Obligations.PutspWritesThePackedString := fun _ _ h =>
  ⟨putspIsStringService.exec_of_accepts h,
    fun _ hk hfails => trap_of_failsAt (putspIsStringService.exec_holdsString h) hk hfails⟩

/-- Settles O49: the loop over `m + n` words is the one over `m` and then over `n`, and both services go on alike. -/
theorem splittingAStringServiceChangesNothing : Obligations.SplittingAStringServiceChangesNothing := by
  refine ⟨fun m n a s h => ⟨?puts, ?putsp⟩, fun a s hrun => ⟨fun h => ?putsStep, fun h => ?putspStep⟩,
    putsIsStringService.stringGoesOn, putspIsStringService.stringGoesOn⟩
  case puts =>
    rcases stringLoop_add putWord_eq (inside := .puts) m n a s h with ⟨b, hservice, hloop⟩ | ⟨hservice, hloop⟩ <;>
      rw [hservice] <;> exact hloop
  case putsp =>
    rcases stringLoop_add putPackedWord_eq (inside := .putsp) m n a s h with
      ⟨b, hservice, hloop⟩ | ⟨hservice, hloop⟩ <;> rw [hservice] <;> exact hloop
  case putsStep => exact putsIsStringService.step_eq hrun h
  case putspStep => exact putspIsStringService.step_eq hrun h

end Sys2Proof.Machine
end

section
/-! The load port (R230, R234): one image from its bytes, and the images in order. -/

namespace Sys2Proof.Machine

/-! ### One image -/

/-- A word is its two bytes, high byte first. -/
theorem highByte_append_lowByte (w : Word) : (w.extractLsb 15 8 ++ w.extractLsb 7 0 : BitVec 16) = w :=
  (BitVec.extractLsb'_append_extractLsb'_eq_extractLsb' rfl).trans BitVec.extractLsb'_eq_self

/-- The words of an image are those it was made of, with an odd byte dropped (D18). -/
theorem bigEndianWords_imageBytes (ws : List Word) {odd : List Byte} (hodd : odd.length ≤ 1) :
    bigEndianWords (imageBytes ws ++ odd) = ws := by
  induction ws with
  | nil =>
    match odd, hodd with
    | [], _ => rfl
    | [_], _ => rfl
  | cons w ws ih => exact congrArg₂ List.cons (highByte_append_lowByte w) ih

theorem loadImage_imageBytes (origin : Word) (ws : List Word) {odd : List Byte} (hodd : odd.length ≤ 1) (s : State) :
    loadImage (imageBytes (origin :: ws) ++ odd) s =
      if (loadWords origin.toNat ws s.mem).2 = 0 then .error .noWords
      else .ok ({ s with mem := (loadWords origin.toNat ws s.mem).1 }, (loadWords origin.toNat ws s.mem).2) := by
  rw [loadImage, bigEndianWords_imageBytes _ hodd]

/-- An image of at least one word stores its words from its origin up to 0xFFFF, and changes memory only. -/
theorem loadImage_stores (origin : Word) {ws : List Word} {odd : List Byte} {s : State} (hwf : s.mem.wf = true)
    (hodd : odd.length ≤ 1) (hws : ws ≠ []) :
    ∃ m : Memory, loadImage (imageBytes (origin :: ws) ++ odd) s =
        .ok ({ s with mem := m }, min ws.length (65536 - origin.toNat)) ∧ m.wf = true ∧
      (∀ k w, k < 65536 - origin.toNat → ws[k]? = some w → m.read (origin + BitVec.ofNat 16 k) = w) ∧
      (∀ a : Word, (a.toNat < origin.toNat ∨ origin.toNat + ws.length ≤ a.toNat) → m.read a = s.mem.read a) := by
  obtain ⟨count, hmwf, stored, kept⟩ := loadWords_spec ws origin.toNat s.mem hwf
  have hspace : origin.toNat < 65536 := origin.isLt
  have hlen : 0 < ws.length := List.length_pos_of_ne_nil hws
  refine ⟨_, ?_, hmwf, fun k w hk hw => ?_, kept⟩
  · rw [loadImage_imageBytes origin ws hodd, if_neg (by omega), count]
  · rw [← stored k w (by omega) hw, BitVec.ofNat_add, BitVec.ofNat_toNat, BitVec.setWidth_eq]

/-- Settles O59: the image's words are stored; an image of the origin alone stores none. -/
theorem anImageLoadsConsecutively : Obligations.AnImageLoadsConsecutively := by
  intro origin ws odd s hwf hodd
  refine ⟨fun hws => ?stores, fun hnone => ?originOnly⟩
  case stores =>
    obtain ⟨m, hload, -, stored, kept⟩ := loadImage_stores origin hwf hodd hws
    exact ⟨_, hload, stored, kept, rfl, rfl, rfl, rfl, ⟨rfl, rfl⟩⟩
  case originOnly =>
    rw [hnone, loadImage_imageBytes origin [] hodd]
    rfl

/-! ### Images in order -/

theorem loadImages_cons_eq_bind (image : List Byte) (rest : List (List Byte)) (s : State) :
    loadImages (image :: rest) s = (loadImage image s).bind fun r => loadImages rest r.1 := by
  rw [loadImages_cons]
  cases loadImage image s <;> rfl

/-- Images in a row load one part after the other, the first error ending both. -/
theorem loadImages_append (images rest : List (List Byte)) (s : State) :
    loadImages (images ++ rest) s = (loadImages images s).bind (loadImages rest) := by
  induction images generalizing s with
  | nil => rfl
  | cons image images ih =>
    rw [List.cons_append, loadImages_cons_eq_bind, loadImages_cons_eq_bind]
    cases loadImage image s with
    | error e => rfl
    | ok r => exact ih r.1

theorem loadImages_singleton (image : List Byte) (s : State) :
    loadImages [image] s = (loadImage image s).bind fun r => .ok r.1 := loadImages_cons_eq_bind image [] s

/-- An image with no origin word cannot be read. -/
theorem loadImage_of_short {image : List Byte} (h : image.length < 2) (s : State) :
    loadImage image s = .error .unreadable := by
  match image, h with
  | [], _ => rfl
  | [_], _ => rfl

/-- Settles O60: a list's last image loads into the state that those before it leave, and a load changes memory only. -/
theorem imagesLoadInOrder : Obligations.ImagesLoadInOrder := by
  refine ⟨fun s => rfl, fun images rest s e h => ?failed, fun image s h => loadImage_of_short h s,
    fun images image s u e hu he => ?lastFails, fun images origin ws odd s u hwf hodd hws hu => ?last,
    fun p images t h => ?booted⟩
  case failed => rw [loadImages_append, h]; rfl
  case lastFails =>
    rw [loadImages_append, hu]
    exact (loadImages_singleton image u).trans (by rw [he]; rfl)
  case last =>
    obtain ⟨m, rfl, hm⟩ := loadImages_keeps hu
    obtain ⟨m', hload, hwf', stored, kept⟩ :=
      loadImage_stores (s := { s with mem := m }) origin (hm hwf) hodd hws
    refine ⟨{ s with mem := m' }, ?_, stored, kept, hwf', rfl, rfl, rfl, rfl, ⟨rfl, rfl⟩⟩
    rw [loadImages_append, hu]
    exact (loadImages_singleton _ _).trans (by rw [hload]; rfl)
  case booted =>
    obtain ⟨m, rfl, -⟩ := loadImages_keeps h
    exact ⟨rfl, fun r => resetAt_reg r p, rfl, rfl, rfl, rfl⟩

end Sys2Proof.Machine
end
